-- ==== Sys2Proof/Word.lean ====
section
/-! DEFINITION. The word types of the block, by the widths that R9 and R10 (spec/00_scope.md) and R100 (spec/30_encoding.md) give. -/

namespace Sys2Proof

/-- One byte: an IMEM byte, an output unit, a staged unit (R10). -/
abbrev Byte := BitVec 8

/-- A six-bit value, 0 to 63 (R10, R15). -/
abbrev Six := BitVec 6

/-- The encoder's 24-bit accumulator (R10, R141). -/
abbrev Acc := BitVec 24

/-- A 32-bit register, IMEM address, length or cursor (R8, R10). -/
abbrev Word := BitVec 32

/-- A word address WA[5:0] in the register window (R44). -/
abbrev WordAddr := BitVec 6

/-- The 39-bit transaction word T (R100). -/
abbrev TxnWord := BitVec 39

end Sys2Proof
end

