-- ==== Sys2Proof/Syntax.lean ====
section
/-! DEFINITION. The instructions of the block: its 18 defined host transactions, one constructor for each row of spec/opcode_table.json (R103). -/

namespace Sys2Proof

/-- A defined host transaction. A write carries its 32-bit WDATA whole (R102); a read carries nothing,
because a read ignores WDATA (R100, R105). -/
inductive Instr where
  /-- ENC_RBASE, R151. -/
  | encRbase
  /-- ENC_WBASE, R150: BASE = T[31:0]. -/
  | encWbase (base : Word)
  /-- ENC_RLEN, R153. -/
  | encRlen
  /-- ENC_WLEN, R152: LEN = T[31:0]. -/
  | encWlen (len : Word)
  /-- ENC_RCTRL, R155. -/
  | encRctrl
  /-- ENC_WCTRL, R154: BIND = WDATA[0]; WDATA[31:1] is reserved and ignored (R105). -/
  | encWctrl (wdata : Word)
  /-- ENC_PULL, R156. -/
  | encPull
  /-- ENC_RSTATE, R157. -/
  | encRstate
  /-- ENC_RPOS, R158. -/
  | encRpos
  /-- DEC_RBASE, R201. -/
  | decRbase
  /-- DEC_WBASE, R200: BASE = T[31:0]. -/
  | decWbase (base : Word)
  /-- DEC_RLEN, R203. -/
  | decRlen
  /-- DEC_WLEN, R202: LEN = T[31:0]. -/
  | decWlen (len : Word)
  /-- DEC_RCTRL, R205. -/
  | decRctrl
  /-- DEC_WCTRL, R204: BIND = WDATA[0]; WDATA[31:1] is reserved and ignored (R105). -/
  | decWctrl (wdata : Word)
  /-- DEC_PULL, R206. -/
  | decPull
  /-- DEC_RSTATUS, R207. -/
  | decRstatus
  /-- DEC_RPOS, R208. -/
  | decRpos
  deriving DecidableEq, Repr

end Sys2Proof
end

