-- ==== Sys2Proof/WellFormed.lean ====
section
/-! DEFINITION. The one restriction that the spec puts on an operand: the reserved bits of a command word are 0 (R105 of spec/30_encoding.md). The hardware runs an ill-formed command all the same, and so does `Machine.step` (log entry 3); `Safety.strictStep` refuses it, as R105 asks of a model. -/

namespace Sys2Proof

/-- WDATA[31:1], the reserved bits of ENC_CTRL and DEC_CTRL, are all 0 (R47, R53, R105). -/
def ctrlReservedClear (wdata : Word) : Bool := wdata.extractLsb' 1 31 == 0#31

/-- The transaction sets no reserved bit. -/
def Instr.wf : Instr → Bool
  | .encRbase => true
  | .encWbase _ => true
  | .encRlen => true
  | .encWlen _ => true
  | .encRctrl => true
  | .encWctrl wdata => ctrlReservedClear wdata
  | .encPull => true
  | .encRstate => true
  | .encRpos => true
  | .decRbase => true
  | .decWbase _ => true
  | .decRlen => true
  | .decWlen _ => true
  | .decRctrl => true
  | .decWctrl wdata => ctrlReservedClear wdata
  | .decPull => true
  | .decRstatus => true
  | .decRpos => true

end Sys2Proof
end

