-- ==== Sys2Proof/Decode.lean ====
section
/-! DEFINITION. Decoding the 39-bit transaction word T (R100 to R105 of spec/30_encoding.md), the encoder for it, and the spec's opcode table (R103) as data to hold the decoder against. -/

namespace Sys2Proof

/-- T[38], WE: 1 for a write, 0 for a read (R100). -/
def TxnWord.we (t : TxnWord) : Bool := t.getLsbD 38

/-- T[37:32], WA (R100). -/
def TxnWord.wa (t : TxnWord) : WordAddr := t.extractLsb' 32 6

/-- T[31:0], WDATA (R100). -/
def TxnWord.wdata (t : TxnWord) : Word := t.extractLsb' 0 32

/-- The transaction word with the given three fields (R100). -/
def TxnWord.make (we : Bool) (wa : WordAddr) (wdata : Word) : TxnWord :=
  ((BitVec.ofBool we).setWidth 39 <<< 38) ||| (wa.setWidth 39 <<< 32) ||| wdata.setWidth 39

/-- The two kinds of illegal (WE, WA) pair (R104, R241). -/
inductive Illegal where
  /-- A write to a read-only word: WA 0x03, 0x04, 0x05, 0x0B, 0x0C or 0x0D. -/
  | readOnlyWrite (wa : WordAddr)
  /-- A read or write of a reserved word: WA 0x06, 0x07, or 0x0E to 0x3F. -/
  | reservedWord (we : Bool) (wa : WordAddr)
  deriving DecidableEq, Repr

/-- What a transaction word decodes to. -/
inductive Decoded where
  /-- A row of the opcode map (R103). -/
  | instr (i : Instr)
  /-- An illegal pair, by name: a bus error (R104). -/
  | illegal (c : Illegal)
  deriving DecidableEq, Repr

/-- The reads of the opcode map (R103, rows with WE = 0). -/
def decodeRead (wa : WordAddr) : Decoded :=
  match wa with
  | 0x00#6 => .instr .encRbase
  | 0x01#6 => .instr .encRlen
  | 0x02#6 => .instr .encRctrl
  | 0x03#6 => .instr .encPull
  | 0x04#6 => .instr .encRstate
  | 0x05#6 => .instr .encRpos
  | 0x08#6 => .instr .decRbase
  | 0x09#6 => .instr .decRlen
  | 0x0A#6 => .instr .decRctrl
  | 0x0B#6 => .instr .decPull
  | 0x0C#6 => .instr .decRstatus
  | 0x0D#6 => .instr .decRpos
  | _ => .illegal (.reservedWord false wa)

/-- The writes of the opcode map (R103, rows with WE = 1), and the writes to read-only words (R104). -/
def decodeWrite (wa : WordAddr) (wdata : Word) : Decoded :=
  match wa with
  | 0x00#6 => .instr (.encWbase wdata)
  | 0x01#6 => .instr (.encWlen wdata)
  | 0x02#6 => .instr (.encWctrl wdata)
  | 0x08#6 => .instr (.decWbase wdata)
  | 0x09#6 => .instr (.decWlen wdata)
  | 0x0A#6 => .instr (.decWctrl wdata)
  | 0x03#6 => .illegal (.readOnlyWrite wa)
  | 0x04#6 => .illegal (.readOnlyWrite wa)
  | 0x05#6 => .illegal (.readOnlyWrite wa)
  | 0x0B#6 => .illegal (.readOnlyWrite wa)
  | 0x0C#6 => .illegal (.readOnlyWrite wa)
  | 0x0D#6 => .illegal (.readOnlyWrite wa)
  | _ => .illegal (.reservedWord true wa)

/-- Decoding is by (WE, WA) alone (R103); it is total on the 2^39 transaction words. -/
def decode (t : TxnWord) : Decoded :=
  if t.we then decodeWrite t.wa t.wdata else decodeRead t.wa

/-- The transaction word of an instruction. A read assembles with WDATA = 0 (R110). -/
def encode : Instr → TxnWord
  | .encRbase => TxnWord.make false 0x00#6 0#32
  | .encWbase base => TxnWord.make true 0x00#6 base
  | .encRlen => TxnWord.make false 0x01#6 0#32
  | .encWlen len => TxnWord.make true 0x01#6 len
  | .encRctrl => TxnWord.make false 0x02#6 0#32
  | .encWctrl wdata => TxnWord.make true 0x02#6 wdata
  | .encPull => TxnWord.make false 0x03#6 0#32
  | .encRstate => TxnWord.make false 0x04#6 0#32
  | .encRpos => TxnWord.make false 0x05#6 0#32
  | .decRbase => TxnWord.make false 0x08#6 0#32
  | .decWbase base => TxnWord.make true 0x08#6 base
  | .decRlen => TxnWord.make false 0x09#6 0#32
  | .decWlen len => TxnWord.make true 0x09#6 len
  | .decRctrl => TxnWord.make false 0x0A#6 0#32
  | .decWctrl wdata => TxnWord.make true 0x0A#6 wdata
  | .decPull => TxnWord.make false 0x0B#6 0#32
  | .decRstatus => TxnWord.make false 0x0C#6 0#32
  | .decRpos => TxnWord.make false 0x0D#6 0#32

/-- The operand of an instruction: the whole WDATA of a write, nothing for a read (R102). -/
def Instr.operand : Instr → Option Word
  | .encRbase => none
  | .encWbase base => some base
  | .encRlen => none
  | .encWlen len => some len
  | .encRctrl => none
  | .encWctrl wdata => some wdata
  | .encPull => none
  | .encRstate => none
  | .encRpos => none
  | .decRbase => none
  | .decWbase base => some base
  | .decRlen => none
  | .decWlen len => some len
  | .decRctrl => none
  | .decWctrl wdata => some wdata
  | .decPull => none
  | .decRstatus => none
  | .decRpos => none

/-- Transactions to the encoder's words, WA 0x00 to 0x07 (R102, R254). -/
def Instr.toEncoder : Instr → Bool
  | .encRbase => true
  | .encWbase _ => true
  | .encRlen => true
  | .encWlen _ => true
  | .encRctrl => true
  | .encWctrl _ => true
  | .encPull => true
  | .encRstate => true
  | .encRpos => true
  | .decRbase => false
  | .decWbase _ => false
  | .decRlen => false
  | .decWlen _ => false
  | .decRctrl => false
  | .decWctrl _ => false
  | .decPull => false
  | .decRstatus => false
  | .decRpos => false

/-- The mnemonic of an instruction in R103's table. -/
def Instr.mnemonic : Instr → String
  | .encRbase => "ENC_RBASE"
  | .encWbase _ => "ENC_WBASE"
  | .encRlen => "ENC_RLEN"
  | .encWlen _ => "ENC_WLEN"
  | .encRctrl => "ENC_RCTRL"
  | .encWctrl _ => "ENC_WCTRL"
  | .encPull => "ENC_PULL"
  | .encRstate => "ENC_RSTATE"
  | .encRpos => "ENC_RPOS"
  | .decRbase => "DEC_RBASE"
  | .decWbase _ => "DEC_WBASE"
  | .decRlen => "DEC_RLEN"
  | .decWlen _ => "DEC_WLEN"
  | .decRctrl => "DEC_RCTRL"
  | .decWctrl _ => "DEC_WCTRL"
  | .decPull => "DEC_PULL"
  | .decRstatus => "DEC_RSTATUS"
  | .decRpos => "DEC_RPOS"

/-- A row of R103's table: a transaction T matches when `(T & mask) = bits`. -/
structure OpcodeRow where
  mnemonic : String
  bits : TxnWord
  mask : TxnWord
  deriving DecidableEq, Repr

/-- `(T & mask) = match` (R103). -/
def OpcodeRow.accepts (r : OpcodeRow) (t : TxnWord) : Bool := t &&& r.mask == r.bits

/-- The opcode map, copied from R103 row by row. The decoder does not use it; statements hold the
decoder against it. -/
def opcodeTable : List OpcodeRow :=
  [ ⟨"ENC_RBASE", 0x0000000000, 0x7F00000000⟩,
    ⟨"ENC_WBASE", 0x4000000000, 0x7F00000000⟩,
    ⟨"ENC_RLEN", 0x0100000000, 0x7F00000000⟩,
    ⟨"ENC_WLEN", 0x4100000000, 0x7F00000000⟩,
    ⟨"ENC_RCTRL", 0x0200000000, 0x7F00000000⟩,
    ⟨"ENC_WCTRL", 0x4200000000, 0x7F00000000⟩,
    ⟨"ENC_PULL", 0x0300000000, 0x7F00000000⟩,
    ⟨"ENC_RSTATE", 0x0400000000, 0x7F00000000⟩,
    ⟨"ENC_RPOS", 0x0500000000, 0x7F00000000⟩ ] ++
  [ ⟨"DEC_RBASE", 0x0800000000, 0x7F00000000⟩,
    ⟨"DEC_WBASE", 0x4800000000, 0x7F00000000⟩,
    ⟨"DEC_RLEN", 0x0900000000, 0x7F00000000⟩,
    ⟨"DEC_WLEN", 0x4900000000, 0x7F00000000⟩,
    ⟨"DEC_RCTRL", 0x0A00000000, 0x7F00000000⟩,
    ⟨"DEC_WCTRL", 0x4A00000000, 0x7F00000000⟩,
    ⟨"DEC_PULL", 0x0B00000000, 0x7F00000000⟩,
    ⟨"DEC_RSTATUS", 0x0C00000000, 0x7F00000000⟩,
    ⟨"DEC_RPOS", 0x0D00000000, 0x7F00000000⟩ ]

/-- The transaction word given by the low `nbits` bits of `w`, when they fit the 39 bits of T. The
opcode table's bits are those of T (log entry 16). -/
def txnOfBits (nbits w : Nat) : Option TxnWord :=
  if w % 2 ^ nbits < 2 ^ 39 then some (BitVec.ofNat 39 (w % 2 ^ nbits)) else none

/-- The instruction that the decoder reads from a table word; none where it rejects. -/
def decodeTableWord (nbits w : Nat) : Option Instr :=
  match txnOfBits nbits w with
  | none => none
  | some t =>
    match decode t with
    | .instr i => some i
    | .illegal _ => none

end Sys2Proof
end

