-- ==== Sys2Proof/Machine/State.lean ====
section
/-! DEFINITION. The state of the block as plain data (sections 2 and 3 of spec/10_state.md), IMEM, the host port, and the reasons a step can stop. The reset values are those of R270 of spec/70_reset_and_hazards.md. -/

namespace Sys2Proof.Machine

/-- The encoder's phase, E.phase (R32). -/
inductive EncPhase where
  /-- No input has been bound since reset. -/
  | unbound
  /-- An input is bound and END has not been returned. -/
  | streaming
  /-- A pull has returned END. -/
  | exhausted
  deriving DecidableEq, Repr

/-- The decoder's phase, D.phase (R36). -/
inductive DecPhase where
  /-- No input has been bound since reset. -/
  | unbound
  /-- An input is bound, no END and no FAIL has been returned. -/
  | streaming
  /-- A pull has returned END. -/
  | exhausted
  /-- A pull has found an invalid or truncated chunk. -/
  | failed
  deriving DecidableEq, Repr

/-- The encoder's staging buffer, four units (R35). -/
structure EncStage where
  u0 : Byte
  u1 : Byte
  u2 : Byte
  u3 : Byte
  deriving DecidableEq, Repr

/-- The decoder's staging buffer, three units (R39). -/
structure DecStage where
  u0 : Byte
  u1 : Byte
  u2 : Byte
  deriving DecidableEq, Repr

/-- The encoder unit (R32 to R35, R42). `broken` and `draws` are the model's own fields. -/
structure EncUnit where
  /-- E.phase (R32). -/
  phase : EncPhase
  /-- E.bbase, the bound base address (R33). -/
  bbase : Word
  /-- E.blen, the bound length (R33). -/
  blen : Word
  /-- E.pos, the input cursor (R34). -/
  pos : Word
  /-- E.stage (R35). -/
  stage : EncStage
  /-- E.valid, 0 or 4 (R35). -/
  valid : BitVec 3
  /-- E.rd, units delivered (R35). -/
  rd : BitVec 3
  /-- E.BASE, the shadow register behind ENC_BASE (R42, R45). -/
  base : Word
  /-- E.LEN, the shadow register behind ENC_LEN (R42, R46). -/
  len : Word
  /-- The model's own: the host has written into this binding's range while the unit was STREAMING (R275; log entry 6). -/
  broken : Bool
  /-- The model's own: how many free bytes this unit has drawn (U2; log entry 7). -/
  draws : Nat
  deriving DecidableEq, Repr

/-- The decoder unit (R36 to R40, R42). `broken` and `draws` are the model's own fields. -/
structure DecUnit where
  /-- D.phase (R36). -/
  phase : DecPhase
  /-- D.bbase, the bound base address (R37). -/
  bbase : Word
  /-- D.blen, the bound length (R37). -/
  blen : Word
  /-- D.pos, the input cursor (R38). -/
  pos : Word
  /-- D.stage (R39). -/
  stage : DecStage
  /-- D.valid, 0 to 3 (R39). -/
  valid : BitVec 2
  /-- D.rd, units delivered (R39). -/
  rd : BitVec 2
  /-- D.err, the status flag: true is error (R40). -/
  err : Bool
  /-- D.BASE, the shadow register behind DEC_BASE (R42, R51). -/
  base : Word
  /-- D.LEN, the shadow register behind DEC_LEN (R42, R52). -/
  len : Word
  /-- The model's own: the host has written into this binding's range while the unit was STREAMING (R275; log entry 6). -/
  broken : Bool
  /-- The model's own: how many free bytes this unit has drawn (U2; log entry 7). -/
  draws : Nat
  deriving DecidableEq, Repr

/-- The response of a host transaction: RDATA[31:0] and ERR (R100). -/
structure Response where
  rdata : Word
  err : Bool
  deriving DecidableEq, Repr

/-- How a platform can break the duty of R276: the reads of a register that reach the block are not one for
one those that the host program issued. -/
inductive ReadBreach where
  /-- Read ahead of the program, on a path it may not take. -/
  | speculative
  /-- Fetched before the program asks for it. -/
  | prefetched
  /-- Delivered once more beside the program's own read. -/
  | duplicated
  /-- Delivered again after the program's own read. -/
  | retried
  /-- Delivered once for several reads of the program, as a cache does too. -/
  | combined
  deriving DecidableEq, Repr

/-- What the world outside the block can do to it, one event at a time (sections 1 and 6 of
spec/20_memory.md, section 1 of spec/70_reset_and_hazards.md). -/
inductive HostEvent where
  /-- A host transaction with the word T (R100). -/
  | transaction (t : TxnWord)
  /-- The host writes one byte of IMEM by its own means (R70, R86, R274). -/
  | imemWrite (a : Word) (v : Byte)
  /-- The reset input is asserted between transactions (R270); a power loss is the same (R256). -/
  | reset
  /-- The reset input is asserted while the transaction T is in progress (R272). -/
  | resetDuring (t : TxnWord)
  /-- The platform issues a narrow or split access to the window (R78, U9). -/
  | narrowAccess (wa : WordAddr)
  /-- An IMEM read made by the transaction T fails (R72, parameter IMEM_ERR, U5). -/
  | imemReadError (t : TxnWord)
  /-- The platform delivers a read of the word WA that breaks R276 in the given way. -/
  | unfaithfulRead (breach : ReadBreach) (wa : WordAddr)
  deriving DecidableEq, Repr

/-- IMEM as (address, byte) pairs in one canonical form: addresses strictly rising and below 2^32, and
no entry equal to what an unlisted address reads as (`Memory.wf` in Machine/Ops.lean). -/
abbrev Memory := List Host.Cell

/-- The whole state. -/
structure State where
  /-- The encoder unit. -/
  enc : EncUnit
  /-- The decoder unit. -/
  dec : DecUnit
  /-- The input memory, owned by the host (R70). -/
  imem : Memory
  /-- The host events not yet served, oldest first (R81, R85; log entry 1). -/
  inbox : List HostEvent
  /-- The response to the event served last, none where it got none (R100; log entry 2). -/
  response : Option Response
  /-- The IMEM addresses read while serving the last event, in order (R71, R73, R74; log entry 2). -/
  imemReads : List Word
  deriving DecidableEq, Repr

/-- Reasons a machine stops with a fault. `step` raises none: the spec lets nothing stop the block
(R240). Only `Safety.strictStep` raises one. -/
inductive Fault where
  /-- Raised by `Safety.strictStep` alone, for a transaction the block answers with a bus error: D4 asks a
  model to treat that answer as a fault of the host program. Safe: it stops where the hardware goes on. -/
  | busError
  deriving DecidableEq, Repr

/-- Reasons a machine refuses a host event. -/
inductive Refusal where
  /-- Raised by an arm of `exec` whose instruction has no meaning yet. No arm does. Safe. -/
  | notModelled (mnemonic : String)
  /-- Raised by `step` on a narrow or split access to the window, which is outside the spec and which R78
  tells a model to refuse. Safe. -/
  | narrowAccess
  /-- Raised by `step` on a failing IMEM read, which is outside the spec and which R72, D14 and U5 tell a
  model to refuse. Safe. -/
  | imemReadError
  /-- Raised by `Safety.strictStep` alone, on a command word with a reserved bit set (R105). Safe. -/
  | ctrlReservedBits
  /-- Raised by `Safety.strictStep` alone, on a host write into the bound range of a STREAMING unit (R275). Safe. -/
  | boundRangeWrite
  /-- Raised by `Safety.strictStep` alone, on a reset in the middle of a transaction (R272). Safe. -/
  | resetMidTransaction
  /-- Raised by `Safety.strictStep` alone, on a read that the platform delivers otherwise than the host
  program issued it (R276, D20). Safe. -/
  | unfaithfulRead
  deriving DecidableEq, Repr

/-- The encoder at reset (R270). The staging contents are unspecified (U1): DESIGN CHOICE 0x00, log entry 4.
`broken` and `draws` are the model's own: log entries 6 and 7. -/
def EncUnit.reset : EncUnit where
  phase := .unbound
  bbase := 0
  blen := 0
  pos := 0
  stage := ⟨0, 0, 0, 0⟩
  valid := 0
  rd := 0
  base := 0
  len := 0
  broken := false
  draws := 0

/-- The decoder at reset (R270). The staging contents are unspecified (U1): DESIGN CHOICE 0x00, log entry 4.
`broken` and `draws` are the model's own: log entries 6 and 7. -/
def DecUnit.reset : DecUnit where
  phase := .unbound
  bbase := 0
  blen := 0
  pos := 0
  stage := ⟨0, 0, 0⟩
  valid := 0
  rd := 0
  err := false
  base := 0
  len := 0
  broken := false
  draws := 0

/-- The machine right after reset: both units as R270 says, IMEM with nothing listed, no event waiting,
no response given (log entries 1, 2 and 5). -/
def State.reset : State where
  enc := EncUnit.reset
  dec := DecUnit.reset
  imem := []
  inbox := []
  response := none
  imemReads := []

end Sys2Proof.Machine
end

