-- ==== Sys2Proof/Machine/Chunk.lean ====
section
/-! DEFINITION. The alphabet (section 5 of spec/30_encoding.md) and the two pure chunk functions (R140 to R145, R180 to R190). The character codes are US-ASCII: log entry 12. -/

namespace Sys2Proof.Machine

/-- '=' (R113). -/
def padChar : Byte := 0x3D#8

/-- ENC_ALPHA (R112). -/
def encAlpha (v : Six) : Byte :=
  if v ≤ 25#6 then 0x41#8 + v.setWidth 8
  else if v ≤ 51#6 then 0x61#8 + (v - 26#6).setWidth 8
  else if v ≤ 61#6 then 0x30#8 + (v - 52#6).setWidth 8
  else if v = 62#6 then 0x2B#8
  else 0x2F#8

/-- The class of an input character of the decoder (R114). -/
inductive CharClass where
  | value (v : Six)
  | pad
  | invalid
  deriving DecidableEq, Repr

/-- CLASSIFY (R114): the standard and the URL-safe characters together (R183). -/
def classify (c : Byte) : CharClass :=
  if 0x41#8 ≤ c ∧ c ≤ 0x5A#8 then .value ((c - 0x41#8).setWidth 6)
  else if 0x61#8 ≤ c ∧ c ≤ 0x7A#8 then .value ((c - 0x61#8).setWidth 6 + 26#6)
  else if 0x30#8 ≤ c ∧ c ≤ 0x39#8 then .value ((c - 0x30#8).setWidth 6 + 52#6)
  else if c = 0x2B#8 ∨ c = 0x2D#8 then .value 62#6
  else if c = 0x2F#8 ∨ c = 0x5F#8 then .value 63#6
  else if c = padChar then .pad
  else .invalid

/-- The accumulator: b0 in bits 23:16, b1 in 15:8, b2 in 7:0, absent bytes zero (R141). -/
def packChunk (k : Nat) (b0 b1 b2 : Byte) : Acc :=
  (b0.setWidth 24 <<< 16) |||
    ((if 2 ≤ k then b1 else 0#8).setWidth 24 <<< 8) |||
    (if k = 3 then b2 else 0#8).setWidth 24

/-- EncodeChunk (R145), for a chunk of `k` = 1, 2 or 3 bytes. -/
def encodeChunk (k : Nat) (b0 b1 b2 : Byte) : EncStage :=
  let acc := packChunk k b0 b1 b2
  { u0 := encAlpha (acc.extractLsb' 18 6)
    u1 := encAlpha (acc.extractLsb' 12 6)
    u2 := if 2 ≤ k then encAlpha (acc.extractLsb' 6 6) else padChar
    u3 := if k = 3 then encAlpha (acc.extractLsb' 0 6) else padChar }

/-- The result of DecodeChunk: (ok, n, o0, o1, o2) (R190). -/
structure DecodedChunk where
  ok : Bool
  n : BitVec 2
  stage : DecStage
  deriving DecidableEq, Repr

/-- The result for an invalid chunk (R190). -/
def DecodedChunk.bad : DecodedChunk := ⟨false, 0, ⟨0, 0, 0⟩⟩

/-- The six-bit value of a class, 0 where it is none (R190). -/
def CharClass.six : CharClass → Six
  | .value v => v
  | .pad => 0
  | .invalid => 0

/-- Output byte 0 (R187). -/
def unpack0 (v0 v1 : Six) : Byte := (v0.setWidth 8 <<< 2) ||| (v1.setWidth 8 >>> 4)

/-- Output byte 1 (R187). -/
def unpack1 (v1 v2 : Six) : Byte := (v1.setWidth 8 <<< 4) ||| (v2.setWidth 8 >>> 2)

/-- Output byte 2 (R187). -/
def unpack2 (v2 v3 : Six) : Byte := (v2.setWidth 8 <<< 6) ||| v3.setWidth 8

/-- The output count of a valid chunk (R186). -/
def outputCount (t2 t3 : CharClass) : BitVec 2 :=
  if t2 = .pad then 1 else if t3 = .pad then 2 else 3

/-- DecodeChunk on the classes of the four characters (R184 to R187, R190). -/
def decodeClasses (t0 t1 t2 t3 : CharClass) : DecodedChunk :=
  if t0 = .invalid ∨ t1 = .invalid ∨ t2 = .invalid ∨ t3 = .invalid then .bad
  else if t0 = .pad ∨ t1 = .pad then .bad
  else if t2 = .pad ∧ t3 ≠ .pad then .bad
  else
    let n := outputCount t2 t3
    { ok := true
      n := n
      stage :=
        { u0 := unpack0 t0.six t1.six
          u1 := if 2 ≤ n then unpack1 t1.six t2.six else 0
          u2 := if n = 3 then unpack2 t2.six t3.six else 0 } }

/-- DecodeChunk (R190). -/
def decodeChunk (c0 c1 c2 c3 : Byte) : DecodedChunk :=
  decodeClasses (classify c0) (classify c1) (classify c2) (classify c3)

end Sys2Proof.Machine
end

