-- ==== Sys2Proof/Machine/Flags.lean ====
section
/-! DEFINITION. The phase codes and the two status words (R32, R36, R49, R55). -/

namespace Sys2Proof.Machine

/-- The two-bit code of E.phase (R32). -/
def EncPhase.code : EncPhase → BitVec 2
  | .unbound => 0b00#2
  | .streaming => 0b01#2
  | .exhausted => 0b10#2

/-- The two-bit code of D.phase (R36). -/
def DecPhase.code : DecPhase → BitVec 2
  | .unbound => 0b00#2
  | .streaming => 0b01#2
  | .exhausted => 0b10#2
  | .failed => 0b11#2

/-- PEND of the encoder: units staged and not delivered (R49). -/
def EncUnit.pend (u : EncUnit) : BitVec 3 := u.valid - u.rd

/-- PEND of the decoder (R55). -/
def DecUnit.pend (u : DecUnit) : BitVec 2 := u.valid - u.rd

/-- ENC_STATE: PHASE in bits 1:0, PEND in bits 4:2, 0 above (R49). -/
def EncUnit.stateWord (u : EncUnit) : Word :=
  (u.pend.setWidth 32 <<< 2) ||| u.phase.code.setWidth 32

/-- DEC_STATUS: ERR in bit 0, PHASE in bits 2:1, PEND in bits 4:3, 0 above (R55). -/
def DecUnit.statusWord (u : DecUnit) : Word :=
  (u.pend.setWidth 32 <<< 3) ||| (u.phase.code.setWidth 32 <<< 1) ||| (BitVec.ofBool u.err).setWidth 32

/-- The staging buffer is drained: every valid unit has been delivered (R156). -/
def EncUnit.drained (u : EncUnit) : Bool := u.rd == u.valid

/-- The staging buffer is drained (R206). -/
def DecUnit.drained (u : DecUnit) : Bool := u.rd == u.valid

end Sys2Proof.Machine
end

