-- ==== Sys2Proof/Config.lean ====
section
/-! DEFINITION. What the spec leaves open as a parameter or as an unspecified value. None of these constants has a body, so no proof can rest on a value of it. -/

namespace Sys2Proof

/-- The bytes that encoder refills read once the host has broken the borrow: unspecified (R275 of
spec/70_reset_and_hazards.md, U2 of spec/93_implementation_defined.md). A free value for each draw.
DESIGN CHOICE, safe: log entries 6 and 7. -/
opaque Config.encFreeByte : Nat → Byte

/-- The same for decoder refills (R275, U2). DESIGN CHOICE, safe: log entries 6 and 7. -/
opaque Config.decFreeByte : Nat → Byte

/-- `B64_WINDOW_BASE`, the window's base in the host's address space: an open platform parameter
(R8, R83, D20, U6). Log entry 15. -/
opaque Config.windowBase : Nat

end Sys2Proof
end

