-- ==== Sys2Proof/Machine/Operands.lean ====
section
/-! DEFINITION. The operand and response formats: the BIND bit of a command word (R102), the pull result word (R108), and the staged unit that a pull delivers. -/

namespace Sys2Proof.Machine

/-- BIND = WDATA[0] (R47, R53, R102); the reserved bits WDATA[31:1] are ignored (R105). -/
def bindBit (wdata : Word) : Bool := wdata.getLsbD 0

/-- The KIND field of a pull result (R108). -/
inductive PullKind where
  | data
  | done
  | fail
  | unbound
  deriving DecidableEq, Repr

/-- The code of KIND in bits 9:8 (R108). -/
def PullKind.code : PullKind → BitVec 2
  | .data => 0b00#2
  | .done => 0b01#2
  | .fail => 0b10#2
  | .unbound => 0b11#2

/-- The read data of ENC_DATA and DEC_DATA: KIND in bits 9:8, BYTE in bits 7:0, 0 above (R48, R54, R108). -/
def pullWord (kind : PullKind) (byte : Byte) : Word :=
  (kind.code.setWidth 32 <<< 8) ||| byte.setWidth 32

/-- DATA with the delivered byte (R108). -/
def dataWord (byte : Byte) : Word := pullWord .data byte

/-- END, 0x00000100 (R108). -/
def endWord : Word := pullWord .done 0

/-- FAIL, 0x00000200 (R108). -/
def failWord : Word := pullWord .fail 0

/-- UNBOUND, 0x00000300 (R108). -/
def unboundWord : Word := pullWord .unbound 0

/-- E.stage[i] (R35). An index above 3 does not arise between transactions (`Safety.Inv`; log entry 13). -/
def EncStage.get (g : EncStage) (i : BitVec 3) : Byte :=
  if i = 0 then g.u0 else if i = 1 then g.u1 else if i = 2 then g.u2 else g.u3

/-- D.stage[i] (R39). An index above 2 does not arise between transactions (`Safety.Inv`; log entry 13). -/
def DecStage.get (g : DecStage) (i : BitVec 2) : Byte :=
  if i = 0 then g.u0 else if i = 1 then g.u1 else g.u2

/-- The host byte address of a register: the window's base plus 4 * WA (R44, R83). -/
def registerAddress (wa : WordAddr) : Nat := Config.windowBase + 4 * wa.toNat

end Sys2Proof.Machine
end

