-- ==== Sys2Proof/Machine/Ops.lean ====
section
/-! DEFINITION. The shared operations: IMEM, the response port, the two error entries (sections 1, 4 and 5 of spec/60_exceptions.md), the binds that return a unit to service, and the bytes a refill fetches. -/

namespace Sys2Proof.Machine

/-! ## IMEM -/

/-- What an IMEM address reads as when the host has not written it. The spec gives IMEM no contents and
says that a read always completes with data (R72): DESIGN CHOICE 0x00, unsafe, log entry 5. -/
def Memory.unlisted : Byte := 0x00#8

/-- The byte at an address. -/
def Memory.read : Memory → Nat → Byte
  | [], _ => Memory.unlisted
  | (b, v) :: rest, a => if a = b then v else Memory.read rest a

/-- The memory with one byte changed, in canonical form. -/
def Memory.write : Memory → Nat → Byte → Memory
  | [], a, v => if v = Memory.unlisted then [] else [(a, v)]
  | (b, w) :: rest, a, v =>
    if a < b then
      if v = Memory.unlisted then (b, w) :: rest else (a, v) :: (b, w) :: rest
    else if a = b then
      if v = Memory.unlisted then rest else (a, v) :: rest
    else (b, w) :: Memory.write rest a v

/-- Canonical from address `lo` on: strictly rising addresses, all at least `lo` and below 2^32, and no
entry that reads as an unlisted address does. -/
def Memory.wfFrom (lo : Nat) : Memory → Bool
  | [] => true
  | (a, v) :: rest =>
    decide (lo ≤ a) && decide (a < 2 ^ 32) && decide (v ≠ Memory.unlisted) && Memory.wfFrom (a + 1) rest

/-- The canonical form. -/
def Memory.wf (m : Memory) : Bool := Memory.wfFrom 0 m

/-- `IMemRead(a)`: one byte of IMEM, with no side effect (R12, R72). -/
def iMemRead (m : Memory) (a : Word) : Byte := m.read a.toNat

/-- The host's write of one byte of IMEM (R70, R274). -/
def iMemWrite (m : Memory) (a : Word) (v : Byte) : Memory := m.write a.toNat v

/-! ## The response port -/

/-- `respond(rdata, err)` (R12), with the IMEM addresses that the transaction has read. -/
def State.respond (s : State) (rdata : Word) (err : Bool) (reads : List Word) : State :=
  { s with response := some ⟨rdata, err⟩, imemReads := reads }

/-- An event that is no transaction: it gets no response and makes no IMEM read. -/
def State.noResponse (s : State) : State :=
  { s with response := none, imemReads := [] }

/-! ## The error entries -/

/-- `raise BusError` (R12, R242): RDATA = 0 and ERR = 1, no state of the block changed, no IMEM read. -/
def raiseBusError (s : State) : State := s.respond 0 true []

/-- The decoder's entry into the error state (R246): phase FAILED and the status flag; nothing else. -/
def DecUnit.fail (u : DecUnit) : DecUnit := { u with phase := .failed, err := true }

/-- `raise DecodeError` (R246): the decoder fails and the pull answers FAIL with no bus error. -/
def raiseDecodeError (s : State) (reads : List Word) : State :=
  { s with dec := s.dec.fail }.respond 0x00000200#32 false reads

/-! ## Binding

There is no return from the error state (R247): a bind constructs a new unit, and it is the only way out
of FAILED and EXHAUSTED besides reset (R247, R248, R273). -/

/-- The effect of ENC_CTRL.BIND = 1 (R154). A bind ends the old borrow (R275). -/
def EncUnit.bind (u : EncUnit) : EncUnit :=
  { u with
    bbase := u.base
    blen := u.len
    pos := 0
    valid := 0
    rd := 0
    phase := .streaming
    broken := false }

/-- The effect of DEC_CTRL.BIND = 1 (R204). A bind ends the old borrow (R275). -/
def DecUnit.bind (u : DecUnit) : DecUnit :=
  { u with
    bbase := u.base
    blen := u.len
    pos := 0
    valid := 0
    rd := 0
    err := false
    phase := .streaming
    broken := false }

/-! ## Reset and the borrow -/

/-- The encoder after the reset input (R270). The count of free bytes drawn goes on (log entry 7). -/
def EncUnit.afterReset (u : EncUnit) : EncUnit := { EncUnit.reset with draws := u.draws }

/-- The decoder after the reset input (R270). The count of free bytes drawn goes on (log entry 7). -/
def DecUnit.afterReset (u : DecUnit) : DecUnit := { DecUnit.reset with draws := u.draws }

/-- The reset input (R270): every state element of the block takes its reset value. IMEM and the events
still to come are the host's and stay (log entry 8). -/
def assertReset (s : State) : State :=
  { s with enc := s.enc.afterReset, dec := s.dec.afterReset }.noResponse

/-- The address `a` lies in the `blen` bytes from `bbase`, addresses taken modulo 2^32 (R33, R73). -/
def inRange (a bbase blen : Word) : Bool := (a - bbase).toNat < blen.toNat

/-- The encoder after a host write to IMEM address `a`: the borrow is broken if the unit is STREAMING and
`a` is in its bound range (R275; log entry 6). -/
def EncUnit.hostWrote (u : EncUnit) (a : Word) : EncUnit :=
  { u with broken := u.broken || (u.phase == .streaming && inRange a u.bbase u.blen) }

/-- The decoder after a host write to IMEM address `a` (R275; log entry 6). -/
def DecUnit.hostWrote (u : DecUnit) (a : Word) : DecUnit :=
  { u with broken := u.broken || (u.phase == .streaming && inRange a u.bbase u.blen) }

/-- The host writes one byte of IMEM (R70, R86, R274, R275). -/
def hostImemWrite (a : Word) (v : Byte) (s : State) : State :=
  { s with
    imem := iMemWrite s.imem a v
    enc := s.enc.hostWrote a
    dec := s.dec.hostWrote a }.noResponse

/-! ## The bytes of a refill -/

/-- The IMEM address of byte `j` after the cursor: `(bbase + pos + j) mod 2^32` (R73). -/
def chunkAddr (bbase pos : Word) (j : Nat) : Word := bbase + pos + BitVec.ofNat 32 j

/-- The addresses of a chunk of `k` bytes, in the order they are read (R73, R74). -/
def chunkAddrs (bbase pos : Word) (k : Nat) : List Word :=
  (List.range k).map (chunkAddr bbase pos)

/-- Byte `j` of the encoder's next chunk: what IMEM holds (R72), or a free byte once the borrow is broken
(R275, U2; log entry 6). -/
def EncUnit.fetch (u : EncUnit) (m : Memory) (j : Nat) : Byte :=
  if u.broken then Config.encFreeByte (u.draws + j) else iMemRead m (chunkAddr u.bbase u.pos j)

/-- Byte `j` of the decoder's next chunk (R72; R275, U2; log entry 6). -/
def DecUnit.fetch (u : DecUnit) (m : Memory) (j : Nat) : Byte :=
  if u.broken then Config.decFreeByte (u.draws + j) else iMemRead m (chunkAddr u.bbase u.pos j)

/-- The count of free bytes drawn, after a chunk of `k` bytes (log entry 7). -/
def drawsAfter (broken : Bool) (draws k : Nat) : Nat := if broken then draws + k else draws

end Sys2Proof.Machine
end

