-- ==== Sys2Proof/Machine/Decoder.lean ====
section
/-! DEFINITION. The meanings of the nine decoder transactions (section 3 of spec/41_decoder.md). -/

namespace Sys2Proof.Machine

/-- Fewer than 4 bytes are left: the chunk is truncated (R180). -/
def DecUnit.truncated (u : DecUnit) : Bool := u.blen.toNat - u.pos.toNat < 4

/-- The decoded next chunk (R206): its four characters in order, through DecodeChunk (R190). -/
def DecUnit.nextChunk (u : DecUnit) (m : Memory) : DecodedChunk :=
  decodeChunk (u.fetch m 0) (u.fetch m 1) (u.fetch m 2) (u.fetch m 3)

/-- The decoder after the four reads of a chunk: only the model's count of free bytes moves (log entry 7). -/
def DecUnit.afterReads (u : DecUnit) : DecUnit :=
  { u with draws := drawsAfter u.broken u.draws 4 }

/-- The decoder after a refill with a valid chunk (R206). -/
def DecUnit.refill (u : DecUnit) (c : DecodedChunk) : DecUnit :=
  { u.afterReads with
    stage := c.stage
    valid := c.n
    rd := 0
    pos := u.pos + 4 }

/-- Deliver the next staged unit (the end of R206), after the IMEM reads of a refill, if any. -/
def decDeliver (s : State) (reads : List Word) : State :=
  { s with dec := { s.dec with rd := s.dec.rd + 1 } }.respond
    (dataWord (s.dec.stage.get s.dec.rd)) false reads

/-- The part of DEC_PULL that needs a new chunk of 4 bytes (R206): it reads all four before it judges them. -/
def decRefillPull (s : State) : State :=
  let reads := chunkAddrs s.dec.bbase s.dec.pos 4
  let c := s.dec.nextChunk s.imem
  if c.ok then decDeliver { s with dec := s.dec.refill c } reads
  else raiseDecodeError { s with dec := s.dec.afterReads } reads

/-- DEC_WBASE (R200). -/
def execDecWbase (base : Word) (s : State) : Host.Outcome State Fault Refusal :=
  .next ({ s with dec := { s.dec with base := base } }.respond 0 false [])

/-- DEC_RBASE (R201). -/
def execDecRbase (s : State) : Host.Outcome State Fault Refusal :=
  .next (s.respond s.dec.base false [])

/-- DEC_WLEN (R202). -/
def execDecWlen (len : Word) (s : State) : Host.Outcome State Fault Refusal :=
  .next ({ s with dec := { s.dec with len := len } }.respond 0 false [])

/-- DEC_RLEN (R203). -/
def execDecRlen (s : State) : Host.Outcome State Fault Refusal :=
  .next (s.respond s.dec.len false [])

/-- DEC_WCTRL (R204): acts on BIND alone, whatever the reserved bits hold (R105; log entry 3). -/
def execDecWctrl (wdata : Word) (s : State) : Host.Outcome State Fault Refusal :=
  if bindBit wdata then .next ({ s with dec := s.dec.bind }.respond 0 false [])
  else .next (s.respond 0 false [])

/-- DEC_RCTRL (R205). -/
def execDecRctrl (s : State) : Host.Outcome State Fault Refusal :=
  .next (s.respond 0 false [])

/-- DEC_PULL (R206). -/
def execDecPull (s : State) : Host.Outcome State Fault Refusal :=
  match s.dec.phase with
  | .unbound => .next (s.respond unboundWord false [])
  | .exhausted => .next (s.respond endWord false [])
  | .failed => .next (s.respond failWord false [])
  | .streaming =>
    if s.dec.drained then
      if s.dec.pos = s.dec.blen then
        .next ({ s with dec := { s.dec with phase := .exhausted } }.respond endWord false [])
      else if s.dec.truncated then .next (raiseDecodeError s [])
      else .next (decRefillPull s)
    else .next (decDeliver s [])

/-- DEC_RSTATUS (R207): reading does not clear ERR. -/
def execDecRstatus (s : State) : Host.Outcome State Fault Refusal :=
  .next (s.respond s.dec.statusWord false [])

/-- DEC_RPOS (R208). -/
def execDecRpos (s : State) : Host.Outcome State Fault Refusal :=
  .next (s.respond s.dec.pos false [])

end Sys2Proof.Machine
end

