-- ==== Sys2Proof/Machine/Encoder.lean ====
section
/-! DEFINITION. The meanings of the nine encoder transactions (section 3 of spec/40_encoder.md). -/

namespace Sys2Proof.Machine

/-- The size of the next chunk, `k = min(3, E.blen - E.pos)` (R140). -/
def EncUnit.chunkSize (u : EncUnit) : Nat := min 3 (u.blen.toNat - u.pos.toNat)

/-- The encoder after a refill (R156): the chunk of `k` bytes is transcoded into the staging buffer. -/
def EncUnit.refill (u : EncUnit) (m : Memory) : EncUnit :=
  let k := u.chunkSize
  let b0 := u.fetch m 0
  let b1 := if 2 ≤ k then u.fetch m 1 else 0
  let b2 := if k = 3 then u.fetch m 2 else 0
  { u with
    stage := encodeChunk k b0 b1 b2
    valid := 4
    rd := 0
    pos := u.pos + BitVec.ofNat 32 k
    draws := drawsAfter u.broken u.draws k }

/-- Deliver the next staged unit (the end of R156), after the IMEM reads of a refill, if any. -/
def encDeliver (s : State) (reads : List Word) : State :=
  { s with enc := { s.enc with rd := s.enc.rd + 1 } }.respond
    (dataWord (s.enc.stage.get s.enc.rd)) false reads

/-- ENC_WBASE (R150). -/
def execEncWbase (base : Word) (s : State) : Host.Outcome State Fault Refusal :=
  .next ({ s with enc := { s.enc with base := base } }.respond 0 false [])

/-- ENC_RBASE (R151). -/
def execEncRbase (s : State) : Host.Outcome State Fault Refusal :=
  .next (s.respond s.enc.base false [])

/-- ENC_WLEN (R152). -/
def execEncWlen (len : Word) (s : State) : Host.Outcome State Fault Refusal :=
  .next ({ s with enc := { s.enc with len := len } }.respond 0 false [])

/-- ENC_RLEN (R153). -/
def execEncRlen (s : State) : Host.Outcome State Fault Refusal :=
  .next (s.respond s.enc.len false [])

/-- ENC_WCTRL (R154): acts on BIND alone, whatever the reserved bits hold (R105; log entry 3). -/
def execEncWctrl (wdata : Word) (s : State) : Host.Outcome State Fault Refusal :=
  if bindBit wdata then .next ({ s with enc := s.enc.bind }.respond 0 false [])
  else .next (s.respond 0 false [])

/-- ENC_RCTRL (R155). -/
def execEncRctrl (s : State) : Host.Outcome State Fault Refusal :=
  .next (s.respond 0 false [])

/-- ENC_PULL (R156). -/
def execEncPull (s : State) : Host.Outcome State Fault Refusal :=
  match s.enc.phase with
  | .unbound => .next (s.respond unboundWord false [])
  | .exhausted => .next (s.respond endWord false [])
  | .streaming =>
    if s.enc.drained then
      if s.enc.pos = s.enc.blen then
        .next ({ s with enc := { s.enc with phase := .exhausted } }.respond endWord false [])
      else
        .next (encDeliver { s with enc := s.enc.refill s.imem }
          (chunkAddrs s.enc.bbase s.enc.pos s.enc.chunkSize))
    else .next (encDeliver s [])

/-- ENC_RSTATE (R157). -/
def execEncRstate (s : State) : Host.Outcome State Fault Refusal :=
  .next (s.respond s.enc.stateWord false [])

/-- ENC_RPOS (R158). -/
def execEncRpos (s : State) : Host.Outcome State Fault Refusal :=
  .next (s.respond s.enc.pos false [])

end Sys2Proof.Machine
end

