-- ==== Sys2Proof/Machine/Dispatch.lean ====
section
/-! DEFINITION. One arm for each instruction. -/

namespace Sys2Proof.Machine

/-- The effect of one decoded transaction on the state. -/
def exec (i : Instr) (s : State) : Host.Outcome State Fault Refusal :=
  match i with
  | .encRbase => Sys2Proof.Machine.execEncRbase s
  | .encWbase base => Sys2Proof.Machine.execEncWbase base s
  | .encRlen => Sys2Proof.Machine.execEncRlen s
  | .encWlen len => Sys2Proof.Machine.execEncWlen len s
  | .encRctrl => Sys2Proof.Machine.execEncRctrl s
  | .encWctrl wdata => Sys2Proof.Machine.execEncWctrl wdata s
  | .encPull => Sys2Proof.Machine.execEncPull s
  | .encRstate => Sys2Proof.Machine.execEncRstate s
  | .encRpos => Sys2Proof.Machine.execEncRpos s
  | .decRbase => Sys2Proof.Machine.execDecRbase s
  | .decWbase base => Sys2Proof.Machine.execDecWbase base s
  | .decRlen => Sys2Proof.Machine.execDecRlen s
  | .decWlen len => Sys2Proof.Machine.execDecWlen len s
  | .decRctrl => Sys2Proof.Machine.execDecRctrl s
  | .decWctrl wdata => Sys2Proof.Machine.execDecWctrl wdata s
  | .decPull => Sys2Proof.Machine.execDecPull s
  | .decRstatus => Sys2Proof.Machine.execDecRstatus s
  | .decRpos => Sys2Proof.Machine.execDecRpos s

end Sys2Proof.Machine
end

