-- ==== Sys2Proof/Machine/Serve.lean ====
section
/-! DEFINITION. Serving one host event: decoding a transaction and running it or answering a bus error (R245), and the events that are no transactions. -/

namespace Sys2Proof.Machine

/-- Serve the transaction T (R100, R245): first the bus error, from (WE, WA) alone; else its meaning. -/
def serveTransaction (t : TxnWord) (s : State) : Host.Outcome State Fault Refusal :=
  match decode t with
  | .instr i => exec i s
  | .illegal _ => .next (raiseBusError s)

/-- Serve one host event. The block cannot tell an unfaithful read from the host program's own and serves it
as any read: it may refill, and it consumes a unit or moves the phase (R82, R276; log entry 18). -/
def serveEvent (e : HostEvent) (s : State) : Host.Outcome State Fault Refusal :=
  match e with
  | .transaction t => serveTransaction t s
  | .imemWrite a v => .next (hostImemWrite a v s)
  | .reset => .next (assertReset s)
  | .resetDuring _ => .next (assertReset s)
  | .narrowAccess _ => .refused .narrowAccess
  | .imemReadError _ => .refused .imemReadError
  | .unfaithfulRead _ wa => serveTransaction (TxnWord.make false wa 0#32) s

/-- Serve the oldest waiting event; with none waiting the block does nothing (R30, R256). -/
def serveNext (s : State) : Host.Outcome State Fault Refusal :=
  match s.inbox with
  | [] => .next s
  | e :: rest => serveEvent e { s with inbox := rest }

/-- The state with one more event waiting, to be served before all others. -/
def State.offer (s : State) (e : HostEvent) : State := { s with inbox := e :: s.inbox }

end Sys2Proof.Machine
end

