-- ==== Sys2Proof/Machine/Step.lean ====
section
/-! DEFINITION. One step of the machine: one host event, served as one indivisible step (R81). -/

namespace Sys2Proof.Machine

/-- One step. -/
def step (s : State) : Host.Outcome State Fault Refusal := serveNext s

/-- The state in which the very next step serves the given table word as a host transaction. The block
fetches no instructions (R31): the host issues the transaction (log entry 1). Bits that do not fit the 39
bits of T are cut off (log entry 16). -/
def State.withFetchWord (s : State) (nbits w : Nat) : State :=
  s.offer (.transaction (BitVec.ofNat 39 (w % 2 ^ nbits)))

end Sys2Proof.Machine
end

