-- ==== Sys2Proof/Machine/Assembler.lean ====
section
/-! DEFINITION. The assembler's data (section 4 of spec/30_encoding.md): pseudo-instructions and their expansions (R111), the raw forms and the ten-digit listing of a transaction word (R110). The text form of a line is notation and is not modelled (log entry 17). -/

namespace Sys2Proof.Machine

/-- The pseudo-instructions (R111). -/
inductive Pseudo where
  | encBind
  | decBind
  | encOpen (base len : Word)
  | decOpen (base len : Word)
  | encRelease
  | decRelease
  | b64Nop
  deriving DecidableEq, Repr

/-- A pseudo-instruction is only its expansion: separate transactions, each atomic (R111). -/
def Pseudo.expand : Pseudo → List Instr
  | .encBind => [.encWctrl 0x1#32]
  | .decBind => [.decWctrl 0x1#32]
  | .encOpen base len => [.encWbase base, .encWlen len, .encWctrl 0x1#32]
  | .decOpen base len => [.decWbase base, .decWlen len, .decWctrl 0x1#32]
  | .encRelease => [.encWlen 0x0#32, .encWctrl 0x1#32]
  | .decRelease => [.decWlen 0x0#32, .decWctrl 0x1#32]
  | .b64Nop => [.encWctrl 0x0#32]

/-- The transaction words of a pseudo-instruction. -/
def Pseudo.assemble (p : Pseudo) : List TxnWord := p.expand.map encode

/-- The raw forms, which spell any transaction, legal or not (R110). -/
inductive RawForm where
  | wr (wa : WordAddr) (imm : Word)
  | rd (wa : WordAddr)
  deriving DecidableEq, Repr

/-- The transaction word of a raw form (R110). -/
def RawForm.assemble : RawForm → TxnWord
  | .wr wa imm => TxnWord.make true wa imm
  | .rd wa => TxnWord.make false wa 0#32

/-- One hex digit, in capitals. -/
def hexDigit (n : Nat) : Char :=
  if n < 10 then Char.ofNat (48 + n) else Char.ofNat (55 + n)

/-- The assembled form of a line: T as ten hex digits (R110). -/
def listing (t : TxnWord) : List Char :=
  ['0', 'x'] ++ (List.range 10).map fun i => hexDigit (t.toNat / 16 ^ (9 - i) % 16)

end Sys2Proof.Machine
end

