-- ==== Sys2Proof/Machine/Stream.lean ====
section
/-! DEFINITION. The transcoding of a whole byte sequence, chunk by chunk, as functions on lists: what the source calls encode and decode (sections 1 and 2 of spec/40_encoder.md and spec/41_decoder.md). The machine does not use them; statements hold its pulls against them. -/

namespace Sys2Proof.Machine

/-- The input sequence: byte i is at IMEM address `(bbase + i) mod 2^32` (R33, R37, R73). -/
def inputBytes (m : Memory) (bbase blen : Word) : List Byte :=
  (List.range blen.toNat).map fun i => iMemRead m (bbase + BitVec.ofNat 32 i)

/-- The four staged characters in the order they are delivered (R77). -/
def EncStage.units (g : EncStage) : List Byte := [g.u0, g.u1, g.u2, g.u3]

/-- The output bytes of a valid chunk in the order they are delivered (R187). -/
def DecodedChunk.bytes (c : DecodedChunk) : List Byte :=
  [c.stage.u0, c.stage.u1, c.stage.u2].take c.n.toNat

/-- `encode(B)`: chunks of at most 3 bytes, in input order (R140, R145). -/
def encodeStream : List Byte → List Byte
  | [] => []
  | [b0] => (encodeChunk 1 b0 0 0).units
  | [b0, b1] => (encodeChunk 2 b0 b1 0).units
  | b0 :: b1 :: b2 :: rest => (encodeChunk 3 b0 b1 b2).units ++ encodeStream rest

/-- `decode(C)`: the bytes delivered and whether the status stays ok (R180, R190, R192, R193). -/
def decodeStream : List Byte → List Byte × Bool
  | [] => ([], true)
  | c0 :: c1 :: c2 :: c3 :: rest =>
    let c := decodeChunk c0 c1 c2 c3
    if c.ok then (c.bytes ++ (decodeStream rest).1, (decodeStream rest).2) else ([], false)
  | _ => ([], false)

/-- `ceil(n / k)`. -/
def ceilDiv (n k : Nat) : Nat := (n + (k - 1)) / k

end Sys2Proof.Machine
end

