-- ==== Sys2Proof/Safety.lean ====
section
/-! DEFINITION. What claims speak of: the invariant of the state, runs of host transactions, and the strict machine that refuses what the spec asks a model to refuse. -/

namespace Sys2Proof.Machine

/-! ## The invariant -/

/-- The encoder's invariants: R32 (UNBOUND means nothing bound since reset), R34, R35, and R157 (PEND is 0
outside STREAMING and never 4 between transactions). -/
structure EncUnit.Inv (u : EncUnit) : Prop where
  counts : (u.valid = 0 ∧ u.rd = 0) ∨ (u.valid = 4 ∧ 1 ≤ u.rd ∧ u.rd ≤ 4)
  cursor : u.pos ≤ u.blen
  aligned : u.pos.toNat % 3 = 0 ∨ u.pos = u.blen
  drained : u.phase ≠ .streaming → u.rd = u.valid
  ended : u.phase = .exhausted → u.pos = u.blen
  unbound : u.phase = .unbound →
    u.bbase = 0 ∧ u.blen = 0 ∧ u.pos = 0 ∧ u.valid = 0 ∧ u.broken = false

/-- The decoder's invariants: R36, R38, R39, R40 (ERR exactly in FAILED) and R207 (PEND is 0 outside
STREAMING and never 3 between transactions). -/
structure DecUnit.Inv (u : DecUnit) : Prop where
  counts : u.rd ≤ u.valid
  started : u.valid ≠ 0 → 1 ≤ u.rd
  cursor : u.pos ≤ u.blen
  aligned : u.pos.toNat % 4 = 0
  status : u.err = true ↔ u.phase = .failed
  drained : u.phase ≠ .streaming → u.rd = u.valid
  ended : u.phase = .exhausted → u.pos = u.blen
  located : u.phase = .failed → u.pos < u.blen
  unbound : u.phase = .unbound →
    u.bbase = 0 ∧ u.blen = 0 ∧ u.pos = 0 ∧ u.valid = 0 ∧ u.broken = false

/-- The invariant of the whole state: both units', and IMEM in canonical form. -/
structure State.Inv (s : State) : Prop where
  enc : s.enc.Inv
  dec : s.dec.Inv
  imem : s.imem.wf = true

/-! ## Runs of host transactions -/

/-- The host issues the transaction T and the machine takes one step. -/
def transact (t : TxnWord) (s : State) : Host.Outcome State Fault Refusal :=
  step (s.offer (.transaction t))

/-- The host issues transactions one after another; the responses in order and the last state, or none
where one of them got no response. -/
def transactAll : List TxnWord → State → Option (List Response × State)
  | [], s => some ([], s)
  | t :: ts, s =>
    match transact t s with
    | .next s' =>
      match s'.response with
      | some r => (transactAll ts s').map fun p => (r :: p.1, p.2)
      | none => none
    | .fault _ => none
    | .refused _ => none

/-- A successful response. -/
def okResponse (rdata : Word) : Response := ⟨rdata, false⟩

/-- The DATA responses of a sequence of units (R108). -/
def dataResponses (units : List Byte) : List Response := units.map fun u => okResponse (dataWord u)

/-! ## The strict machine

The spec asks models to refuse host programs and platforms that lean on what it leaves open: D4 (bus errors),
R105, R272, R275 and R276. `step` runs these as the hardware does; `strictStep` refuses them (log entries 3,
6, 9, 11 and 18). -/

/-- The reason for which the spec asks a model not to serve this event, if it gives one. -/
def strictRefusal (e : HostEvent) (s : State) : Option Refusal :=
  match e with
  | .transaction t =>
    match decode t with
    | .instr i => if i.wf then none else some .ctrlReservedBits
    | .illegal _ => none
  | .imemWrite a _ =>
    if (s.enc.phase == .streaming && inRange a s.enc.bbase s.enc.blen) ||
        (s.dec.phase == .streaming && inRange a s.dec.bbase s.dec.blen) then some .boundRangeWrite
    else none
  | .reset => none
  | .resetDuring _ => some .resetMidTransaction
  | .narrowAccess _ => some .narrowAccess
  | .imemReadError _ => some .imemReadError
  | .unfaithfulRead _ _ => some .unfaithfulRead

/-- The event is a transaction that the block answers with a bus error (R241). -/
def isBusError (e : HostEvent) : Bool :=
  match e with
  | .transaction t =>
    match decode t with
    | .instr _ => false
    | .illegal _ => true
  | .imemWrite _ _ => false
  | .reset => false
  | .resetDuring _ => false
  | .narrowAccess _ => false
  | .imemReadError _ => false
  | .unfaithfulRead _ _ => false

/-- One step of the strict machine. -/
def strictStep (s : State) : Host.Outcome State Fault Refusal :=
  match s.inbox with
  | [] => .next s
  | e :: _ =>
    match strictRefusal e s with
    | some r => .refused r
    | none => if isBusError e then .fault .busError else step s

end Sys2Proof.Machine
end

