-- ==== Sys2Proof/Certificates/Slice0/Obligations.lean ====
section
/-! DEFINITION. The statements for the provers, from the numbered rules of spec/. -/

open Sys2Proof Sys2Proof.Machine

/-! ## The transaction word (spec/30_encoding.md) -/

/-- R100, R103: words written out from the spec's table and programs decode to their transactions. -/
def Obligations.SampleTransactionWordsDecode : Prop :=
  decode 0x4000001000#39 = .instr (.encWbase 0x1000#32) ∧
  decode 0x4100000003#39 = .instr (.encWlen 3#32) ∧
  decode 0x4200000001#39 = .instr (.encWctrl 1#32) ∧
  decode 0x0300000000#39 = .instr .encPull ∧
  decode 0x0400000000#39 = .instr .encRstate ∧
  decode 0x0500000000#39 = .instr .encRpos ∧
  decode 0x4800002000#39 = .instr (.decWbase 0x2000#32) ∧
  decode 0x4900000005#39 = .instr (.decWlen 5#32) ∧
  decode 0x4A00000001#39 = .instr (.decWctrl 1#32) ∧
  decode 0x0B00000000#39 = .instr .decPull ∧
  decode 0x0C00000000#39 = .instr .decRstatus ∧
  decode 0x0D00000000#39 = .instr .decRpos ∧
  decode 0x440000001F#39 = .illegal (.readOnlyWrite 0x04#6) ∧
  decode 0x0600000000#39 = .illegal (.reservedWord false 0x06#6) ∧
  decode 0x7FFFFFFFFF#39 = .illegal (.reservedWord true 0x3F#6)

/-- R100, R103: decoding an encoded instruction gives it back, with every operand at every value. -/
def Obligations.DecodeOfEncodeIsTheInstruction : Prop :=
  ∀ i : Instr, decode (encode i) = .instr i

/-- R100, R105, R110: encoding what a word decodes to gives the word back, but that a read assembles with
WDATA = 0. -/
def Obligations.EncodeOfDecodeIsTheWord : Prop :=
  ∀ (t : TxnWord) (i : Instr), decode t = .instr i →
    encode i = TxnWord.make t.we t.wa (if t.we then t.wdata else 0#32)

/-- R103: the decoder accepts exactly what a row of the opcode map matches, gives that row's transaction
with its operand (BASE or LEN = T[31:0], BIND = T[0]), looks at (WE, WA) alone to choose the row, and no
word matches two rows. -/
def Obligations.DecoderFollowsTheOpcodeMap : Prop :=
  opcodeTable.length = 18 ∧
  ∀ t : TxnWord,
    (∀ r ∈ opcodeTable, r.accepts t = true →
      ∃ i : Instr, decode t = .instr i ∧ i.mnemonic = r.mnemonic ∧
        i.operand = if t.getLsbD 38 then some (t.extractLsb' 0 32) else none) ∧
    (∀ i : Instr, decode t = .instr i → ∃ r ∈ opcodeTable, r.accepts t = true) ∧
    (∀ w : Word, (decode t = .instr (.encWctrl w) ∨ decode t = .instr (.decWctrl w)) →
      bindBit w = t.getLsbD 0) ∧
    (∀ u : TxnWord, u.we = t.we → u.wa = t.wa → ∀ r ∈ opcodeTable, r.accepts u = r.accepts t) ∧
    (∀ r ∈ opcodeTable, ∀ q ∈ opcodeTable, r.accepts t = true → q.accepts t = true → r = q)

/-- R104: the pairs that match no row of the opcode map are illegal: the writes to a read-only word and
every access to a reserved word, 110 of the 128 pairs. Each is a bus error with no effect on the block. -/
def Obligations.EveryOtherPairIsAnIllegalBusError : Prop :=
  (∀ t : TxnWord,
    ((∃ c, decode t = .illegal c) ↔ ∀ r ∈ opcodeTable, r.accepts t = false) ∧
    ((∃ wa, decode t = .illegal (.readOnlyWrite wa)) ↔
      t.we = true ∧ t.wa ∈ [0x03#6, 0x04#6, 0x05#6, 0x0B#6, 0x0C#6, 0x0D#6]) ∧
    ((∃ we wa, decode t = .illegal (.reservedWord we wa)) ↔
      (t.wa = 0x06#6 ∨ t.wa = 0x07#6 ∨ 0x0E#6 ≤ t.wa))) ∧
  ((List.range 128).filter fun n =>
      opcodeTable.all fun r => !r.accepts (BitVec.ofNat 39 (n * 2 ^ 32))).length = 110 ∧
  ∀ (t : TxnWord) (c : Illegal) (s : State), decode t = .illegal c →
    transact t s = .next { s with response := some ⟨0#32, true⟩, imemReads := [] }

/-- R241, R242: a transaction is answered with ERR exactly when no row of the opcode map matches it, which
is a write to a read-only word or any access to a reserved word, whatever WDATA and the state; then the
response is RDATA = 0, no state of the block changes, no IMEM is read, and any next transaction
proceeds as if this one had not been issued. -/
def Obligations.BusErrorExactlyOutsideTheOpcodeMap : Prop :=
  ∀ (t : TxnWord) (s : State), ∃ s' r, transact t s = .next s' ∧ s'.response = some r ∧
    (r.err = true ↔ ∀ row ∈ opcodeTable, row.accepts t = false) ∧
    (r.err = true ↔ (t.we = true ∧ t.wa ∈ [0x03#6, 0x04#6, 0x05#6, 0x0B#6, 0x0C#6, 0x0D#6]) ∨
      t.wa = 0x06#6 ∨ t.wa = 0x07#6 ∨ 0x0E#6 ≤ t.wa) ∧
    (r.err = true → r.rdata = 0 ∧ s'.enc = s.enc ∧ s'.dec = s.dec ∧ s'.imem = s.imem ∧
      s'.imemReads = [] ∧ ∀ u : TxnWord, transact u s' = transact u s)

/-! ## Steps -/

/-- R81, R85: a step serves the oldest waiting transaction, as one indivisible step, and takes it off the
inbox; what it does is `exec` of the decoded instruction. -/
def Obligations.StepRunsTheDecodedTransaction : Prop :=
  ∀ (s : State) (t : TxnWord) (rest : List HostEvent) (i : Instr),
    s.inbox = .transaction t :: rest → decode t = .instr i →
      step s = exec i { s with inbox := rest }

/-- R30, R256: with no host event waiting, a step changes nothing. -/
def Obligations.IdleStepChangesNothing : Prop :=
  ∀ s : State, s.inbox = [] → step s = .next s

/-- R100, R147, R240, R250: every defined transaction completes in every state and is answered without a
bus error; no phase, no data and no host is shut out. -/
def Obligations.EveryDefinedTransactionIsAnswered : Prop :=
  ∀ (i : Instr) (s : State), ∃ t rdata,
    exec i s = .next t ∧ t.response = some ⟨rdata, false⟩ ∧ t.inbox = s.inbox

/-! ## Encoder registers (section 3 of spec/40_encoder.md) -/

/-- R150, R151, R45: ENC_WBASE writes the shadow base and nothing else of the block; ENC_RBASE reads it. -/
def Obligations.EncBaseIsWrittenAndRead : Prop :=
  State.reset.enc.base = 0#32 ∧
  ∀ (s : State) (t : TxnWord),
    (t &&& 0x7F00000000#39 = 0x4000000000#39 →
      decode t = .instr (.encWbase (t.extractLsb' 0 32))) ∧
    (t &&& 0x7F00000000#39 = 0x0000000000#39 → decode t = .instr .encRbase) ∧
    (∀ b : Word, exec (.encWbase b) s =
      .next { s with enc := { s.enc with base := b }, response := some ⟨0#32, false⟩, imemReads := [] }) ∧
    exec .encRbase s = .next { s with response := some ⟨s.enc.base, false⟩, imemReads := [] }

/-- R152, R153, R46: ENC_WLEN writes the shadow length and nothing else of the block; ENC_RLEN reads it. -/
def Obligations.EncLenIsWrittenAndRead : Prop :=
  State.reset.enc.len = 0#32 ∧
  ∀ (s : State) (t : TxnWord),
    (t &&& 0x7F00000000#39 = 0x4100000000#39 →
      decode t = .instr (.encWlen (t.extractLsb' 0 32))) ∧
    (t &&& 0x7F00000000#39 = 0x0100000000#39 → decode t = .instr .encRlen) ∧
    (∀ l : Word, exec (.encWlen l) s =
      .next { s with enc := { s.enc with len := l }, response := some ⟨0#32, false⟩, imemReads := [] }) ∧
    exec .encRlen s = .next { s with response := some ⟨s.enc.len, false⟩, imemReads := [] }

/-- R154, R155: ENC_WCTRL with BIND = 1 binds (E.BASE, E.LEN) in every phase, with BIND = 0 it is a no-op,
and it ignores WDATA[31:1]; ENC_RCTRL reads 0. Nothing is said of `broken`, the model's own field. -/
def Obligations.EncCtrlBindsAndReadsZero : Prop :=
  ∀ (s : State) (t : TxnWord),
    (t &&& 0x7F00000000#39 = 0x4200000000#39 →
      decode t = .instr (.encWctrl (t.extractLsb' 0 32))) ∧
    (t &&& 0x7F00000000#39 = 0x0200000000#39 → decode t = .instr .encRctrl) ∧
    (∀ w : Word, w.getLsbD 0 = true → ∃ b : Bool, exec (.encWctrl w) s =
      .next { s with
        enc := { s.enc with
          bbase := s.enc.base, blen := s.enc.len, pos := 0#32, valid := 0#3, rd := 0#3,
          phase := .streaming, broken := b },
        response := some ⟨0#32, false⟩, imemReads := [] }) ∧
    (∀ w : Word, w.getLsbD 0 = false → exec (.encWctrl w) s =
      .next { s with response := some ⟨0#32, false⟩, imemReads := [] }) ∧
    exec .encRctrl s = .next { s with response := some ⟨0#32, false⟩, imemReads := [] }

/-- R156: the pull in every phase, with its response, its IMEM reads in order, and all that it changes. A
refill is that of a host that has kept the borrow (R275); `pos < blen` is R34's invariant with `pos ≠ blen`. -/
def Obligations.EncPullFollowsItsRule : Prop :=
  (∀ t : TxnWord, t &&& 0x7F00000000#39 = 0x0300000000#39 → decode t = .instr .encPull) ∧
  ∀ s : State,
    (s.enc.phase = .unbound →
      exec .encPull s = .next { s with response := some ⟨0x00000300#32, false⟩, imemReads := [] }) ∧
    (s.enc.phase = .exhausted →
      exec .encPull s = .next { s with response := some ⟨0x00000100#32, false⟩, imemReads := [] }) ∧
    (s.enc.phase = .streaming → s.enc.rd = s.enc.valid → s.enc.pos = s.enc.blen →
      exec .encPull s = .next { s with
        enc := { s.enc with phase := .exhausted },
        response := some ⟨0x00000100#32, false⟩, imemReads := [] }) ∧
    (s.enc.phase = .streaming → s.enc.rd = s.enc.valid → s.enc.pos < s.enc.blen →
      s.enc.broken = false →
      ∀ k, k = min 3 (s.enc.blen.toNat - s.enc.pos.toNat) →
      ∀ b0 b1 b2, b0 = iMemRead s.imem (s.enc.bbase + s.enc.pos) →
        b1 = (if 2 ≤ k then iMemRead s.imem (s.enc.bbase + s.enc.pos + 1#32) else 0#8) →
        b2 = (if k = 3 then iMemRead s.imem (s.enc.bbase + s.enc.pos + 2#32) else 0#8) →
      exec .encPull s = .next { s with
        enc := { s.enc with
          stage := encodeChunk k b0 b1 b2, valid := 4#3, rd := 1#3,
          pos := s.enc.pos + BitVec.ofNat 32 k },
        response := some ⟨(encodeChunk k b0 b1 b2).u0.setWidth 32, false⟩,
        imemReads := [s.enc.bbase + s.enc.pos, s.enc.bbase + s.enc.pos + 1#32,
          s.enc.bbase + s.enc.pos + 2#32].take k }) ∧
    (s.enc.phase = .streaming → s.enc.rd ≠ s.enc.valid →
      ∀ u, [s.enc.stage.u0, s.enc.stage.u1, s.enc.stage.u2, s.enc.stage.u3][s.enc.rd.toNat]? = some u →
      exec .encPull s = .next { s with
        enc := { s.enc with rd := s.enc.rd + 1#3 },
        response := some ⟨u.setWidth 32, false⟩, imemReads := [] })

/-- R275, U2, and log entries 6 and 7 (DESIGN CHOICE): once the host has broken the encoder's borrow, a
refill transcodes free bytes, whatever they are, and everything else of R156 happens as before. -/
def Obligations.EncPullAfterABrokenBorrowRunsOnFreeBytes : Prop :=
  ∀ s : State, s.enc.phase = .streaming → s.enc.rd = s.enc.valid → s.enc.pos < s.enc.blen →
    s.enc.broken = true →
    ∀ k, k = min 3 (s.enc.blen.toNat - s.enc.pos.toNat) →
    ∀ g, g = encodeChunk k (Config.encFreeByte s.enc.draws)
        (if 2 ≤ k then Config.encFreeByte (s.enc.draws + 1) else 0#8)
        (if k = 3 then Config.encFreeByte (s.enc.draws + 2) else 0#8) →
    exec .encPull s = .next { s with
      enc := { s.enc with
        stage := g, valid := 4#3, rd := 1#3, pos := s.enc.pos + BitVec.ofNat 32 k,
        draws := s.enc.draws + k },
      response := some ⟨g.u0.setWidth 32, false⟩,
      imemReads := [s.enc.bbase + s.enc.pos, s.enc.bbase + s.enc.pos + 1#32,
        s.enc.bbase + s.enc.pos + 2#32].take k }

/-- R157, R158: ENC_RSTATE and ENC_RPOS read PHASE with PEND and the cursor, and change nothing of the
block. Between transactions PEND is at most 3, and 0 outside STREAMING. -/
def Obligations.EncStateAndPosAreRead : Prop :=
  (∀ t : TxnWord,
    (t &&& 0x7F00000000#39 = 0x0400000000#39 → decode t = .instr .encRstate) ∧
    (t &&& 0x7F00000000#39 = 0x0500000000#39 → decode t = .instr .encRpos)) ∧
  ∀ s : State,
    (∀ p : Word,
      p = (match s.enc.phase with | .unbound => 0#32 | .streaming => 1#32 | .exhausted => 2#32) →
      exec .encRstate s = .next { s with
        response := some ⟨((s.enc.valid - s.enc.rd).setWidth 32 <<< 2) ||| p, false⟩,
        imemReads := [] }) ∧
    exec .encRpos s = .next { s with response := some ⟨s.enc.pos, false⟩, imemReads := [] } ∧
    (s.Inv → (s.enc.valid - s.enc.rd) ≤ 3#3 ∧
      (s.enc.phase ≠ .streaming → s.enc.valid - s.enc.rd = 0#3))

/-- R159, the table: the only events that change the encoder's phase are a bind, the END pull and reset. -/
def Obligations.EncoderPhaseMachine : Prop :=
  (∀ (i : Instr) (s t : State), exec i s = .next t →
    (t.enc.phase ≠ s.enc.phase →
      (∃ w : Word, i = .encWctrl w ∧ w.getLsbD 0 = true ∧ t.enc.phase = .streaming) ∨
      (i = .encPull ∧ s.enc.phase = .streaming ∧ s.enc.rd = s.enc.valid ∧
        s.enc.pos = s.enc.blen ∧ t.enc.phase = .exhausted ∧
        t.response = some ⟨0x00000100#32, false⟩))) ∧
  (∀ (w : Word) (s t : State), w.getLsbD 0 = true → exec (.encWctrl w) s = .next t →
    t.enc.phase = .streaming) ∧
  (∀ (s : State) (rest : List HostEvent), s.inbox = .reset :: rest →
    ∃ t, step s = .next t ∧ t.enc.phase = .unbound) ∧
  ∀ (s t : State) (e : HostEvent) (rest : List HostEvent), s.inbox = e :: rest → step s = .next t →
    t.enc.phase ≠ s.enc.phase →
    (∃ (w : TxnWord) (i : Instr), decode w = .instr i ∧ exec i { s with inbox := rest } = .next t ∧
      (e = .transaction w ∨ ∃ breach wa, e = .unfaithfulRead breach wa ∧ w = TxnWord.make false wa 0#32)) ∨
    (e = .reset ∨ ∃ w, e = .resetDuring w) ∧ t.enc.phase = .unbound

/-- R159, R148: whatever IMEM holds, a STREAMING encoder answers DATA to each of the pulls that its staged
units and its remaining chunks give, and END to the next one, which takes it to EXHAUSTED. Right after a
bind that is 4 * ceil(blen / 3) DATA and then END. -/
def Obligations.EncoderDrainEndsAfterExactlyItsUnits : Prop :=
  ∀ (s : State) (n : Nat), s.Inv → s.enc.phase = .streaming →
    n = (s.enc.valid - s.enc.rd).toNat + 4 * ceilDiv (s.enc.blen.toNat - s.enc.pos.toNat) 3 →
    (∀ m, m ≤ n → ∃ units t,
      transactAll (List.replicate m (encode .encPull)) s = some (dataResponses units, t) ∧
      units.length = m ∧ t.enc.phase = .streaming) ∧
    ∃ units t, transactAll (List.replicate (n + 1) (encode .encPull)) s =
        some (dataResponses units ++ [okResponse 0x00000100#32], t) ∧
      units.length = n ∧ t.enc.phase = .exhausted ∧ t.enc.pos = s.enc.blen ∧ t.dec = s.dec

/-! ## The alphabet and the encoder's chunk function -/

/-- R112: the 64 characters of the encoding alphabet, from the spec's full table. -/
def Obligations.EncAlphaIsTheStandardAlphabet : Prop :=
  (List.range 64).map (fun n => encAlpha (BitVec.ofNat 6 n)) =
    [0x41#8, 0x42#8, 0x43#8, 0x44#8, 0x45#8, 0x46#8, 0x47#8, 0x48#8, 0x49#8, 0x4A#8, 0x4B#8, 0x4C#8,
      0x4D#8, 0x4E#8, 0x4F#8, 0x50#8, 0x51#8, 0x52#8, 0x53#8, 0x54#8, 0x55#8, 0x56#8, 0x57#8, 0x58#8,
      0x59#8, 0x5A#8] ++
    [0x61#8, 0x62#8, 0x63#8, 0x64#8, 0x65#8, 0x66#8, 0x67#8, 0x68#8, 0x69#8, 0x6A#8, 0x6B#8, 0x6C#8,
      0x6D#8, 0x6E#8, 0x6F#8, 0x70#8, 0x71#8, 0x72#8, 0x73#8, 0x74#8, 0x75#8, 0x76#8, 0x77#8, 0x78#8,
      0x79#8, 0x7A#8] ++
    [0x30#8, 0x31#8, 0x32#8, 0x33#8, 0x34#8, 0x35#8, 0x36#8, 0x37#8, 0x38#8, 0x39#8, 0x2B#8, 0x2F#8]

/-- R114, R182: the decoder's classes invert the encoding alphabet, take '-' for '+' and '_' for '/', take
'=' for padding, and call every other byte invalid: 66, 1 and 189 of the 256 bytes. -/
def Obligations.ClassifyInvertsTheAlphabet : Prop :=
  (∀ v : Six, classify (encAlpha v) = .value v) ∧
  classify 0x2D#8 = .value 62#6 ∧ classify 0x5F#8 = .value 63#6 ∧
  (∀ c : Byte, classify c = .pad ↔ c = 0x3D#8) ∧
  (∀ (c : Byte) (v : Six), classify c = .value v →
    c = encAlpha v ∨ (c = 0x2D#8 ∧ v = 62#6) ∨ (c = 0x5F#8 ∧ v = 63#6)) ∧
  ((List.range 256).filter fun n => classify (BitVec.ofNat 8 n) == .invalid).length = 189

/-- R141 to R145: the accumulator, the six-bit groups, the alphabet mapping and the padding of a chunk of 1,
2 or 3 bytes; the bytes beyond the chunk do not matter. -/
def Obligations.EncodeChunkPacksMapsAndPads : Prop :=
  ∀ b0 b1 b2 : Byte,
    packChunk 3 b0 b1 b2 =
      (b0.setWidth 24 <<< 16) ||| (b1.setWidth 24 <<< 8) ||| b2.setWidth 24 ∧
    packChunk 2 b0 b1 b2 = (b0.setWidth 24 <<< 16) ||| (b1.setWidth 24 <<< 8) ∧
    packChunk 1 b0 b1 b2 = b0.setWidth 24 <<< 16 ∧
    encodeChunk 3 b0 b1 b2 =
      ⟨encAlpha (b0.extractLsb' 2 6), encAlpha (b0.extractLsb' 0 2 ++ b1.extractLsb' 4 4),
        encAlpha (b1.extractLsb' 0 4 ++ b2.extractLsb' 6 2), encAlpha (b2.extractLsb' 0 6)⟩ ∧
    encodeChunk 2 b0 b1 b2 =
      ⟨encAlpha (b0.extractLsb' 2 6), encAlpha (b0.extractLsb' 0 2 ++ b1.extractLsb' 4 4),
        encAlpha (b1.extractLsb' 0 4 ++ 0#2), 0x3D#8⟩ ∧
    encodeChunk 1 b0 b1 b2 =
      ⟨encAlpha (b0.extractLsb' 2 6), encAlpha (b0.extractLsb' 0 2 ++ 0#4), 0x3D#8, 0x3D#8⟩

/-- R160: every output character of encode() is one of the 65 characters A-Z, a-z, 0-9, '+', '/', '='; never
'-' or '_'. -/
def Obligations.EncoderOutputStaysInTheAlphabet : Prop :=
  ∀ bs : List Byte, ∀ c ∈ encodeStream bs,
    ((0x41#8 ≤ c ∧ c ≤ 0x5A#8) ∨ (0x61#8 ≤ c ∧ c ≤ 0x7A#8) ∨ (0x30#8 ≤ c ∧ c ≤ 0x39#8) ∨
      c = 0x2B#8 ∨ c = 0x2F#8 ∨ c = 0x3D#8) ∧ c ≠ 0x2D#8 ∧ c ≠ 0x5F#8

/-- R149: the output ends in exactly 2, 1 or no '=' as N mod 3 is 1, 2 or 0, and '=' stands nowhere else. -/
def Obligations.EncoderPadsAtTheEndOnly : Prop :=
  ∀ bs : List Byte, ∃ body : List Byte,
    encodeStream bs = body ++ List.replicate
      (if bs.length % 3 = 1 then 2 else if bs.length % 3 = 2 then 1 else 0) 0x3D#8 ∧
    (0x3D#8 ∉ body) ∧ (encodeStream bs).length = 4 * ceilDiv bs.length 3

/-! ## Decoder registers (section 3 of spec/41_decoder.md) -/

/-- R200, R201, R51: DEC_WBASE writes the shadow base and nothing else of the block; DEC_RBASE reads it. -/
def Obligations.DecBaseIsWrittenAndRead : Prop :=
  State.reset.dec.base = 0#32 ∧
  ∀ (s : State) (t : TxnWord),
    (t &&& 0x7F00000000#39 = 0x4800000000#39 →
      decode t = .instr (.decWbase (t.extractLsb' 0 32))) ∧
    (t &&& 0x7F00000000#39 = 0x0800000000#39 → decode t = .instr .decRbase) ∧
    (∀ b : Word, exec (.decWbase b) s =
      .next { s with dec := { s.dec with base := b }, response := some ⟨0#32, false⟩, imemReads := [] }) ∧
    exec .decRbase s = .next { s with response := some ⟨s.dec.base, false⟩, imemReads := [] }

/-- R202, R203: DEC_WLEN writes the shadow length and nothing else of the block; DEC_RLEN reads it. -/
def Obligations.DecLenIsWrittenAndRead : Prop :=
  State.reset.dec.len = 0#32 ∧
  ∀ (s : State) (t : TxnWord),
    (t &&& 0x7F00000000#39 = 0x4900000000#39 →
      decode t = .instr (.decWlen (t.extractLsb' 0 32))) ∧
    (t &&& 0x7F00000000#39 = 0x0900000000#39 → decode t = .instr .decRlen) ∧
    (∀ l : Word, exec (.decWlen l) s =
      .next { s with dec := { s.dec with len := l }, response := some ⟨0#32, false⟩, imemReads := [] }) ∧
    exec .decRlen s = .next { s with response := some ⟨s.dec.len, false⟩, imemReads := [] }

/-- R204, R205: DEC_WCTRL with BIND = 1 binds (D.BASE, D.LEN) in every phase and clears the status flag, with
BIND = 0 it is a no-op, and it ignores WDATA[31:1]; DEC_RCTRL reads 0. Nothing is said of `broken`, the
model's own field. -/
def Obligations.DecCtrlBindsAndReadsZero : Prop :=
  ∀ (s : State) (t : TxnWord),
    (t &&& 0x7F00000000#39 = 0x4A00000000#39 →
      decode t = .instr (.decWctrl (t.extractLsb' 0 32))) ∧
    (t &&& 0x7F00000000#39 = 0x0A00000000#39 → decode t = .instr .decRctrl) ∧
    (∀ w : Word, w.getLsbD 0 = true → ∃ b : Bool, exec (.decWctrl w) s =
      .next { s with
        dec := { s.dec with
          bbase := s.dec.base, blen := s.dec.len, pos := 0#32, valid := 0#2, rd := 0#2,
          err := false, phase := .streaming, broken := b },
        response := some ⟨0#32, false⟩, imemReads := [] }) ∧
    (∀ w : Word, w.getLsbD 0 = false → exec (.decWctrl w) s =
      .next { s with response := some ⟨0#32, false⟩, imemReads := [] }) ∧
    exec .decRctrl s = .next { s with response := some ⟨0#32, false⟩, imemReads := [] }

/-- R206, R246: the pull in every phase, with its response, its IMEM reads in order, the DecodeError entry,
and all that it changes. A refill is that of a host that has kept the borrow (R275); `pos < blen` is R38's
invariant with `pos ≠ blen`. -/
def Obligations.DecPullFollowsItsRule : Prop :=
  (∀ t : TxnWord, t &&& 0x7F00000000#39 = 0x0B00000000#39 → decode t = .instr .decPull) ∧
  ∀ s : State,
    (s.dec.phase = .unbound →
      exec .decPull s = .next { s with response := some ⟨0x00000300#32, false⟩, imemReads := [] }) ∧
    (s.dec.phase = .exhausted →
      exec .decPull s = .next { s with response := some ⟨0x00000100#32, false⟩, imemReads := [] }) ∧
    (s.dec.phase = .failed →
      exec .decPull s = .next { s with response := some ⟨0x00000200#32, false⟩, imemReads := [] }) ∧
    (s.dec.phase = .streaming → s.dec.rd = s.dec.valid → s.dec.pos = s.dec.blen →
      exec .decPull s = .next { s with
        dec := { s.dec with phase := .exhausted },
        response := some ⟨0x00000100#32, false⟩, imemReads := [] }) ∧
    (s.dec.phase = .streaming → s.dec.rd = s.dec.valid → s.dec.pos < s.dec.blen →
      s.dec.blen.toNat - s.dec.pos.toNat < 4 →
      exec .decPull s = .next { s with
        dec := { s.dec with phase := .failed, err := true },
        response := some ⟨0x00000200#32, false⟩, imemReads := [] }) ∧
    (s.dec.phase = .streaming → s.dec.rd = s.dec.valid →
      4 ≤ s.dec.blen.toNat - s.dec.pos.toNat → s.dec.broken = false →
      ∀ a0 a1 a2 a3, a0 = s.dec.bbase + s.dec.pos → a1 = a0 + 1#32 → a2 = a0 + 2#32 → a3 = a0 + 3#32 →
      ∀ c, c = decodeChunk (iMemRead s.imem a0) (iMemRead s.imem a1) (iMemRead s.imem a2)
          (iMemRead s.imem a3) →
      (c.ok = false → exec .decPull s = .next { s with
        dec := { s.dec with phase := .failed, err := true },
        response := some ⟨0x00000200#32, false⟩, imemReads := [a0, a1, a2, a3] }) ∧
      (c.ok = true → exec .decPull s = .next { s with
        dec := { s.dec with stage := c.stage, valid := c.n, rd := 1#2, pos := s.dec.pos + 4#32 },
        response := some ⟨c.stage.u0.setWidth 32, false⟩, imemReads := [a0, a1, a2, a3] })) ∧
    (s.dec.phase = .streaming → s.dec.rd ≠ s.dec.valid →
      ∀ u, [s.dec.stage.u0, s.dec.stage.u1, s.dec.stage.u2][s.dec.rd.toNat]? = some u →
      exec .decPull s = .next { s with
        dec := { s.dec with rd := s.dec.rd + 1#2 },
        response := some ⟨u.setWidth 32, false⟩, imemReads := [] })

/-- R275, U2, and log entries 6 and 7 (DESIGN CHOICE): once the host has broken the decoder's borrow, a
refill decodes free bytes, whatever they are, and everything else of R206 happens as before. -/
def Obligations.DecPullAfterABrokenBorrowRunsOnFreeBytes : Prop :=
  ∀ s : State, s.dec.phase = .streaming → s.dec.rd = s.dec.valid →
    4 ≤ s.dec.blen.toNat - s.dec.pos.toNat → s.dec.broken = true →
    ∀ n c a0, n = s.dec.draws → c = decodeChunk (Config.decFreeByte n) (Config.decFreeByte (n + 1))
        (Config.decFreeByte (n + 2)) (Config.decFreeByte (n + 3)) →
    a0 = s.dec.bbase + s.dec.pos →
    exec .decPull s = .next { s with
      dec :=
        if c.ok then { s.dec with
          stage := c.stage, valid := c.n, rd := 1#2, pos := s.dec.pos + 4#32, draws := n + 4 }
        else { s.dec with phase := .failed, err := true, draws := n + 4 },
      response := some ⟨if c.ok then c.stage.u0.setWidth 32 else 0x00000200#32, false⟩,
      imemReads := [a0, a0 + 1#32, a0 + 2#32, a0 + 3#32] }

/-- R207, R208: DEC_RSTATUS and DEC_RPOS read ERR with PHASE and PEND and the cursor, and change nothing of
the block. Between transactions the status word is one of six, by phase, and the cursor is a multiple of 4. -/
def Obligations.DecStatusAndPosAreRead : Prop :=
  (∀ t : TxnWord,
    (t &&& 0x7F00000000#39 = 0x0C00000000#39 → decode t = .instr .decRstatus) ∧
    (t &&& 0x7F00000000#39 = 0x0D00000000#39 → decode t = .instr .decRpos)) ∧
  ∀ s : State,
    (∀ p e w : Word,
      p = (match s.dec.phase with
        | .unbound => 0#32 | .streaming => 1#32 | .exhausted => 2#32 | .failed => 3#32) →
      e = (if s.dec.err then 1#32 else 0#32) →
      w = ((s.dec.valid - s.dec.rd).setWidth 32 <<< 3) ||| (p <<< 1) ||| e →
      exec .decRstatus s = .next { s with response := some ⟨w, false⟩, imemReads := [] } ∧
      (s.Inv →
        (s.dec.phase = .unbound → w = 0x00#32) ∧
        (s.dec.phase = .streaming → w = 0x02#32 ∨ w = 0x0A#32 ∨ w = 0x12#32) ∧
        (s.dec.phase = .exhausted → w = 0x04#32) ∧ (s.dec.phase = .failed → w = 0x07#32))) ∧
    exec .decRpos s = .next { s with response := some ⟨s.dec.pos, false⟩, imemReads := [] } ∧
    (s.Inv → s.dec.pos.toNat % 4 = 0)

/-- R191, R40: between transactions, the ERR bit that DEC_RSTATUS reads is 1 exactly in FAILED. -/
def Obligations.StatusReadsErrorExactlyInFailed : Prop :=
  ∀ s : State, s.Inv → ∃ t r, exec .decRstatus s = .next t ∧ t.response = some ⟨r, false⟩ ∧
    (r.getLsbD 0 = true ↔ s.dec.phase = .failed) ∧ t.dec = s.dec

/-- R209, the table: the only events that change the decoder's phase are a bind, the END pull, a failing
pull and reset. -/
def Obligations.DecoderPhaseMachine : Prop :=
  (∀ (i : Instr) (s t : State), exec i s = .next t → t.dec.phase ≠ s.dec.phase →
    (∃ w : Word, i = .decWctrl w ∧ w.getLsbD 0 = true ∧ t.dec.phase = .streaming ∧
      t.dec.err = false) ∨
    (i = .decPull ∧ s.dec.phase = .streaming ∧ s.dec.rd = s.dec.valid ∧
      s.dec.pos = s.dec.blen ∧ t.dec.phase = .exhausted ∧ t.response = some ⟨0x00000100#32, false⟩) ∨
    (i = .decPull ∧ s.dec.phase = .streaming ∧ s.dec.rd = s.dec.valid ∧
      s.dec.pos ≠ s.dec.blen ∧
      (s.dec.blen.toNat - s.dec.pos.toNat < 4 ∨ (s.dec.nextChunk s.imem).ok = false) ∧
      t.dec.phase = .failed ∧ t.dec.err = true ∧ t.response = some ⟨0x00000200#32, false⟩)) ∧
  (∀ (w : Word) (s t : State), w.getLsbD 0 = true → exec (.decWctrl w) s = .next t →
    t.dec.phase = .streaming ∧ t.dec.err = false) ∧
  (∀ (s : State) (rest : List HostEvent), s.inbox = .reset :: rest →
    ∃ t, step s = .next t ∧ t.dec.phase = .unbound ∧ t.dec.err = false) ∧
  ∀ (s t : State) (e : HostEvent) (rest : List HostEvent), s.inbox = e :: rest → step s = .next t →
    t.dec.phase ≠ s.dec.phase →
    (∃ (w : TxnWord) (i : Instr), decode w = .instr i ∧ exec i { s with inbox := rest } = .next t ∧
      (e = .transaction w ∨ ∃ breach wa, e = .unfaithfulRead breach wa ∧ w = TxnWord.make false wa 0#32)) ∨
    (e = .reset ∨ ∃ w, e = .resetDuring w) ∧ t.dec.phase = .unbound

/-- R209: whatever IMEM holds, a STREAMING decoder is EXHAUSTED or FAILED after at most the pulls that its
staged units and its remaining chunks give, and one more; right after a bind, 3 * ceil(blen / 4) + 1. -/
def Obligations.DecoderDrainEndsWithinItsBound : Prop :=
  ∀ (s : State) (n : Nat), s.Inv → s.dec.phase = .streaming →
    n = (s.dec.valid - s.dec.rd).toNat + 3 * ceilDiv (s.dec.blen.toNat - s.dec.pos.toNat) 4 →
    ∃ rs t, transactAll (List.replicate (n + 1) (encode .decPull)) s = some (rs, t) ∧
      (t.dec.phase = .exhausted ∨ t.dec.phase = .failed) ∧ t.enc = s.enc

/-! ## The decoder's chunk function -/

/-- R184, R185, R186: a chunk is valid exactly with the padding patterns VVVV, VVV= and VV==, and then it
yields 3, 2 and 1 bytes. -/
def Obligations.ChunkIsValidExactlyWithLegalPadding : Prop :=
  ∀ c0 c1 c2 c3 : Byte,
    ((decodeChunk c0 c1 c2 c3).ok = true ↔
      (∃ v, classify c0 = .value v) ∧ (∃ v, classify c1 = .value v) ∧
        (((∃ v, classify c2 = .value v) ∧ ∃ v, classify c3 = .value v) ∨
          ((∃ v, classify c2 = .value v) ∧ classify c3 = .pad) ∨
          (classify c2 = .pad ∧ classify c3 = .pad))) ∧
    ((decodeChunk c0 c1 c2 c3).ok = true →
      (decodeChunk c0 c1 c2 c3).n.toNat + [c0, c1, c2, c3].count 0x3D#8 = 3)

/-- R187: the output bytes of a valid chunk are the concatenated bits of its six-bit values. -/
def Obligations.DecodeChunkRebuildsTheBytes : Prop :=
  ∀ (c0 c1 c2 c3 : Byte) (v0 v1 v2 v3 : Six), classify c0 = .value v0 → classify c1 = .value v1 →
    (classify c2 = .value v2 → classify c3 = .value v3 →
      (decodeChunk c0 c1 c2 c3).bytes =
        [v0 ++ v1.extractLsb' 4 2, v1.extractLsb' 0 4 ++ v2.extractLsb' 2 4,
          v2.extractLsb' 0 2 ++ v3]) ∧
    (classify c2 = .value v2 → (decodeChunk c0 c1 c2 0x3D#8).bytes =
        [v0 ++ v1.extractLsb' 4 2, v1.extractLsb' 0 4 ++ v2.extractLsb' 2 4]) ∧
    (decodeChunk c0 c1 0x3D#8 0x3D#8).bytes = [v0 ++ v1.extractLsb' 4 2]

/-- R188: the bits of a padded chunk that reach no output byte are ignored. -/
def Obligations.UnusedBitsOfAPaddedChunkAreIgnored : Prop :=
  ∀ (c0 c1 c1' c2 c2' : Byte) (v0 v1 v1' v2 v2' : Six), classify c0 = .value v0 →
    classify c1 = .value v1 → classify c1' = .value v1' → classify c2 = .value v2 →
    classify c2' = .value v2' →
    (v1.extractLsb' 4 2 = v1'.extractLsb' 4 2 →
      decodeChunk c0 c1 0x3D#8 0x3D#8 = decodeChunk c0 c1' 0x3D#8 0x3D#8 ∧
      (decodeChunk c0 c1 0x3D#8 0x3D#8).ok = true) ∧
    (v2.extractLsb' 2 4 = v2'.extractLsb' 2 4 →
      decodeChunk c0 c1 c2 0x3D#8 = decodeChunk c0 c1 c2' 0x3D#8 ∧
      (decodeChunk c0 c1 c2 0x3D#8).ok = true)

/-- R183: '-' for '+' and '_' for '/' make no difference, in any positions of a chunk together and in any
positions of a whole input. -/
def Obligations.UrlSafeCharactersDecodeAsTheStandardOnes : Prop :=
  ∀ std : Byte → Byte, (∀ c, std c = if c = 0x2D#8 then 0x2B#8 else if c = 0x5F#8 then 0x2F#8 else c) →
    (∀ c0 c1 c2 c3 : Byte,
      decodeChunk (std c0) (std c1) (std c2) (std c3) = decodeChunk c0 c1 c2 c3) ∧
    ∀ cs : List Byte, decodeStream (cs.map std) = decodeStream cs

/-- R145, R190: decoding an encoded chunk of k bytes gives its k bytes back. -/
def Obligations.DecodeChunkInvertsEncodeChunk : Prop :=
  ∀ (k : Nat) (b0 b1 b2 : Byte), 1 ≤ k → k ≤ 3 → ∀ g, g = encodeChunk k b0 b1 b2 →
    (decodeChunk g.u0 g.u1 g.u2 g.u3).ok = true ∧
    (decodeChunk g.u0 g.u1 g.u2 g.u3).bytes = [b0, b1, b2].take k

/-- R195: a valid input of 4m bytes with P padding characters gives exactly 3m - P bytes. -/
def Obligations.ValidInputDecodesToItsLength : Prop :=
  ∀ cs : List Byte, (decodeStream cs).2 = true →
    cs.length % 4 = 0 ∧ (decodeStream cs).1.length + cs.count 0x3D#8 = 3 * (cs.length / 4)

/-- R189, R193: each chunk is judged alone, so after a valid input, padded or not, decoding goes on with
what follows; and the bytes of the valid part are delivered whatever follows. -/
def Obligations.DecodingGoesOnAfterAValidPart : Prop :=
  ∀ cs ds : List Byte, (decodeStream cs).2 = true →
    decodeStream (cs ++ ds) = ((decodeStream cs).1 ++ (decodeStream ds).1, (decodeStream ds).2)

/-- R192, R247: a FAILED decoder stays FAILED through any transactions but a decoder bind, its cursor stays
on the failing chunk, and every pull of it answers FAIL, changes nothing and reads no IMEM. -/
def Obligations.FailedDecoderStaysFailedUntilABind : Prop :=
  ∀ (ts : List TxnWord) (s : State), s.dec.phase = .failed →
    (∀ t ∈ ts, ∀ w : Word, decode t = .instr (.decWctrl w) → w.getLsbD 0 = false) →
    ∃ rs s', transactAll ts s = some (rs, s') ∧ s'.dec.phase = .failed ∧
      s'.dec.err = s.dec.err ∧ s'.dec.pos = s.dec.pos ∧
      transact (encode .decPull) s' =
        .next { s' with response := some ⟨0x00000200#32, false⟩, imemReads := [] }

/-! ## Whole-machine rules -/

/-- R82: a read of any word but the two DATA words has no side effect: it reads the same again, and every
next transaction does and answers what it would have without it. -/
def Obligations.ReadsOtherThanPullsHaveNoSideEffect : Prop :=
  ∀ i ∈ [Instr.encRbase, .encRlen, .encRctrl, .encRstate, .encRpos, .decRbase, .decRlen, .decRctrl,
      .decRstatus, .decRpos], ∀ s : State, ∃ t, exec i s = .next t ∧ exec i t = .next t ∧
    t.enc = s.enc ∧ t.dec = s.dec ∧ t.imem = s.imem ∧ t.imemReads = [] ∧
    ∀ u : TxnWord, transact u t = transact u s

/-- R71, R73, R74: IMEM is read only by the refill of a pull, in increasing order from the cursor, modulo
2^32: 1 to 3 bytes by the encoder, 4 by the decoder. -/
def Obligations.OnlyRefillsReadImem : Prop :=
  ∀ (i : Instr) (s t : State), exec i s = .next t → t.imemReads ≠ [] →
    (i = .encPull ∧ s.enc.phase = .streaming ∧ s.enc.rd = s.enc.valid ∧ s.enc.pos ≠ s.enc.blen ∧
      t.imemReads.length ≤ 3 ∧
      ∀ j, j < t.imemReads.length →
        t.imemReads[j]? = some (s.enc.bbase + s.enc.pos + BitVec.ofNat 32 j)) ∨
    (i = .decPull ∧ s.dec.phase = .streaming ∧ s.dec.rd = s.dec.valid ∧ s.dec.pos ≠ s.dec.blen ∧
      4 ≤ s.dec.blen.toNat - s.dec.pos.toNat ∧ t.imemReads.length = 4 ∧
      ∀ j, j < 4 → t.imemReads[j]? = some (s.dec.bbase + s.dec.pos + BitVec.ofNat 32 j))

/-- R75: the block never writes IMEM; only the host's own write event changes it. -/
def Obligations.TheBlockNeverWritesImem : Prop :=
  ∀ (s t : State) (e : HostEvent) (rest : List HostEvent), s.inbox = e :: rest →
    (∀ a v, e ≠ .imemWrite a v) → step s = .next t → t.imem = s.imem

/-- R254: a transaction to one unit's words never writes the other unit's state, and never reads it: with
any other state of the other unit it does and answers the same. -/
def Obligations.UnitsShareNoState : Prop :=
  ∀ (i : Instr) (s t : State), exec i s = .next t →
    (i.toEncoder = true → t.dec = s.dec ∧
      ∀ d : DecUnit, exec i { s with dec := d } = .next { t with dec := d }) ∧
    (i.toEncoder = false → t.enc = s.enc ∧
      ∀ e : EncUnit, exec i { s with enc := e } = .next { t with enc := e })

/-- R85: transactions to one unit commute with those to the other: in either order they leave the same
units and IMEM, and each gets the same answer. -/
def Obligations.TransactionsToDifferentUnitsCommute : Prop :=
  ∀ (i j : Instr) (s : State), i.toEncoder = true → j.toEncoder = false →
    ∃ si sij sj sji, exec i s = .next si ∧ exec j si = .next sij ∧
      exec j s = .next sj ∧ exec i sj = .next sji ∧
      sij.enc = sji.enc ∧ sij.dec = sji.dec ∧ sij.imem = sji.imem ∧
      si.response = sji.response ∧ sij.response = sj.response

/-- R42, R279: writing ENC_BASE, ENC_LEN, DEC_BASE or DEC_LEN does not affect a bound stream: any number of
pulls of either unit answers the same after the write as without it. -/
def Obligations.ShadowWritesDoNotAffectTheBoundStream : Prop :=
  ∀ (w : Word), ∀ i ∈ [Instr.encWbase w, .encWlen w, .decWbase w, .decWlen w],
    ∀ p ∈ [Instr.encPull, .decPull], ∀ (n : Nat) (s t : State), exec i s = .next t →
      ∃ rs s' t', transactAll (List.replicate n (encode p)) s = some (rs, s') ∧
        transactAll (List.replicate n (encode p)) t = some (rs, t')

/-! ## Reset and the host's other events -/

/-- R270: what the reset state and the reset input leave. The status registers and BASE/LEN read 0, the
first pulls answer UNBOUND, no IMEM is read and no response is given. -/
def Obligations.ResetLeavesBothUnitsUnbound : Prop :=
  ∀ s : State,
    (s = State.reset ∨ ∃ (s0 : State) (rest : List HostEvent), s0.inbox = .reset :: rest ∧
      step s0 = .next s) →
    s.enc.phase = .unbound ∧ s.dec.phase = .unbound ∧
    s.enc.bbase = 0 ∧ s.enc.blen = 0 ∧ s.enc.pos = 0 ∧ s.dec.bbase = 0 ∧ s.dec.blen = 0 ∧ s.dec.pos = 0 ∧
    s.enc.valid = 0 ∧ s.enc.rd = 0 ∧ s.dec.valid = 0 ∧ s.dec.rd = 0 ∧ s.dec.err = false ∧
    s.enc.base = 0 ∧ s.enc.len = 0 ∧ s.dec.base = 0 ∧ s.dec.len = 0 ∧
    s.response = none ∧ s.imemReads = [] ∧
    (∀ i ∈ [Instr.encRbase, .encRlen, .encRstate, .encRpos, .decRbase, .decRlen, .decRstatus, .decRpos],
      ∃ t, exec i s = .next t ∧ t.response = some ⟨0x00000000#32, false⟩) ∧
    (∀ i ∈ [Instr.encPull, .decPull],
      ∃ t, exec i s = .next t ∧ t.response = some ⟨0x00000300#32, false⟩)

/-- R270, R272, and log entries 4, 7, 8 and 9: the reset input, between transactions or in the middle of one,
takes both units to their reset state, gives no response and reads no IMEM. The staging contents (log
entry 4), and that IMEM, the waiting events and the counts of free bytes drawn stay (log entries 7 and 8),
are the model's choice. -/
def Obligations.ResetEventRestoresTheResetState : Prop :=
  ∀ (s : State) (e : HostEvent) (rest : List HostEvent), s.inbox = e :: rest →
    (e = .reset ∨ ∃ t, e = .resetDuring t) →
    step s = .next { State.reset with
      enc := { State.reset.enc with draws := s.enc.draws },
      dec := { State.reset.dec with draws := s.dec.draws },
      imem := s.imem, inbox := rest }

/-- R70, R72, R86: the host's IMEM write changes the one byte and, outside the range bound to a STREAMING
unit, nothing of that unit. -/
def Obligations.HostWriteChangesOneByteAndNoUnit : Prop :=
  ∀ (s : State) (a : Word) (v : Byte) (rest : List HostEvent), s.Inv →
    s.inbox = .imemWrite a v :: rest → ∃ t, step s = .next t ∧
      iMemRead t.imem a = v ∧ (∀ b : Word, b ≠ a → iMemRead t.imem b = iMemRead s.imem b) ∧
      t.inbox = rest ∧
      ((s.enc.phase ≠ .streaming ∨
        ∀ i, i < s.enc.blen.toNat → a ≠ s.enc.bbase + BitVec.ofNat 32 i) → t.enc = s.enc) ∧
      ((s.dec.phase ≠ .streaming ∨
        ∀ i, i < s.dec.blen.toNat → a ≠ s.dec.bbase + BitVec.ofNat 32 i) → t.dec = s.dec)

/-- R275, and log entry 6 (DESIGN CHOICE): a host write into the range bound to a STREAMING unit marks its
borrow as broken, and changes nothing else of the unit; a bind ends the borrow and the mark. -/
def Obligations.HostWriteIntoABoundRangeBreaksTheBorrow : Prop :=
  (∀ (w : Word) (s t : State), w.getLsbD 0 = true →
    (exec (.encWctrl w) s = .next t → t.enc.broken = false) ∧
    (exec (.decWctrl w) s = .next t → t.dec.broken = false)) ∧
  ∀ (s : State) (a : Word) (v : Byte) (rest : List HostEvent),
    s.inbox = .imemWrite a v :: rest → ∃ t, step s = .next t ∧
      (∀ i, i < s.enc.blen.toNat → a = s.enc.bbase + BitVec.ofNat 32 i → s.enc.phase = .streaming →
        t.enc = { s.enc with broken := true }) ∧
      (∀ i, i < s.dec.blen.toNat → a = s.dec.bbase + BitVec.ofNat 32 i → s.dec.phase = .streaming →
        t.dec = { s.dec with broken := true })

/-- R78, R72: a narrow access to the window and a failing IMEM read are outside the spec, and are refused by
name. -/
def Obligations.PlatformFaultsAreRefused : Prop :=
  ∀ (s : State) (rest : List HostEvent),
    (∀ wa, s.inbox = .narrowAccess wa :: rest → step s = .refused .narrowAccess) ∧
    (∀ t, s.inbox = .imemReadError t :: rest → step s = .refused .imemReadError)

/-- R72, R78, R105, R272, R275, R276, D4: the strict machine refuses what the spec tells a model to refuse,
runs every well-formed transaction, and agrees with the machine on all that it runs.
The model's choices in it: an unfaithful read of EVERY word is refused, where R276 and D20 speak of the DATA
words alone (log entry 18, DESIGN CHOICE, argued from R83); the mark `broken` of the clause on borrows is the
model's own (log entry 6, DESIGN CHOICE); that the refusals of reserved bits, of bound-range writes and of
unfaithful reads, and the fault, stand in `strictStep` and not in `step` (log entries 3, 6, 11 and 18, DESIGN
CHOICE); that every reset in mid-transaction, and a narrow access
or a failing IMEM read, is refused as one event (log entries 9 and 10, DEDUCED). -/
def Obligations.StrictMachineRefusesAndOtherwiseAgrees : Prop :=
  (∀ s t : State, strictStep s = .next t → step s = .next t) ∧
  (∀ (s : State) (t : TxnWord) (rest : List HostEvent) (w : Word),
    s.inbox = .transaction t :: rest →
    (decode t = .instr (.encWctrl w) ∨ decode t = .instr (.decWctrl w)) →
    w.extractLsb' 1 31 ≠ 0#31 → strictStep s = .refused .ctrlReservedBits) ∧
  (∀ (s : State) (a : Word) (v : Byte) (rest : List HostEvent) (i : Nat),
    s.inbox = .imemWrite a v :: rest → s.enc.phase = .streaming → i < s.enc.blen.toNat →
    a = s.enc.bbase + BitVec.ofNat 32 i → strictStep s = .refused .boundRangeWrite) ∧
  (∀ (s : State) (a : Word) (v : Byte) (rest : List HostEvent) (i : Nat),
    s.inbox = .imemWrite a v :: rest → s.dec.phase = .streaming → i < s.dec.blen.toNat →
    a = s.dec.bbase + BitVec.ofNat 32 i → strictStep s = .refused .boundRangeWrite) ∧
  (∀ (s : State) (rest : List HostEvent),
    (∀ t, s.inbox = .resetDuring t :: rest → strictStep s = .refused .resetMidTransaction) ∧
    (∀ breach wa, s.inbox = .unfaithfulRead breach wa :: rest → strictStep s = .refused .unfaithfulRead) ∧
    (∀ wa, s.inbox = .narrowAccess wa :: rest → strictStep s = .refused .narrowAccess) ∧
    (∀ t, s.inbox = .imemReadError t :: rest → strictStep s = .refused .imemReadError)) ∧
  (∀ (s : State) (t : TxnWord) (rest : List HostEvent) (i : Instr),
    s.inbox = .transaction t :: rest → decode t = .instr i → i.wf = true → strictStep s = step s) ∧
  (∀ (s t : State), s.enc.broken = false → s.dec.broken = false → strictStep s = .next t →
    t.enc.broken = false ∧ t.dec.broken = false) ∧
  ∀ (s : State) (t : TxnWord) (rest : List HostEvent) (c : Illegal),
    s.inbox = .transaction t :: rest → decode t = .illegal c → strictStep s = .fault .busError

/-- R276, R82, and log entry 18 (DESIGN CHOICE): the block serves an unfaithful read as the read of the word
that it receives, and such a read of a DATA word of a STREAMING unit always consumes a unit or moves the
phase. -/
def Obligations.UnfaithfulReadsAreServedAndNotIdempotent : Prop :=
  ∀ (s : State) (breach : ReadBreach) (wa : WordAddr) (rest : List HostEvent),
    s.inbox = .unfaithfulRead breach wa :: rest →
    step s = transact (TxnWord.make false wa 0#32) { s with inbox := rest } ∧
    ∃ t, step s = .next t ∧
      (wa = 0x03#6 → s.enc.phase = .streaming → t.enc.phase = .exhausted ∨
        (t.enc.phase = .streaming ∧ t.enc ≠ s.enc ∧
          ∃ u, t.response = some (okResponse (dataWord u)))) ∧
      (wa = 0x0B#6 → s.dec.phase = .streaming → t.dec.phase = .exhausted ∨ t.dec.phase = .failed ∨
        (t.dec.phase = .streaming ∧ t.dec ≠ s.dec ∧
          ∃ u, t.response = some (okResponse (dataWord u))))

/-- R111: the pseudo-instructions and the words they assemble to. -/
def Obligations.PseudoInstructionsExpand : Prop :=
  Pseudo.encBind.assemble = [0x4200000001#39] ∧ Pseudo.decBind.assemble = [0x4A00000001#39] ∧
  (∀ base len : Word,
    (Pseudo.encOpen base len).assemble =
      [0x40#7 ++ base, 0x41#7 ++ len, 0x4200000001#39] ∧
    (Pseudo.decOpen base len).assemble =
      [0x48#7 ++ base, 0x49#7 ++ len, 0x4A00000001#39]) ∧
  Pseudo.encRelease.assemble = [0x4100000000#39, 0x4200000001#39] ∧
  Pseudo.decRelease.assemble = [0x4900000000#39, 0x4A00000001#39] ∧
  Pseudo.b64Nop.assemble = [0x4200000000#39]

/-! ## Invariants -/

/-- R270, R32 to R40: the reset state meets the invariant. -/
def Obligations.ResetMeetsTheInvariant : Prop := State.reset.Inv

/-- R34, R35, R38, R39, R40, R157, R207: every step keeps the invariant, whatever event it serves. -/
def Obligations.EveryStepKeepsTheInvariant : Prop :=
  ∀ s t : State, s.Inv → step s = .next t → t.Inv

/-! ## Whole streams -/

/-- R140, R146, R148, R156: open the encoder on any input and pull: it answers the characters of the
input's encoding in order, exactly 4 * ceil(N / 3), and then END for ever. -/
def Obligations.EncoderDeliversTheEncodingOfItsInput : Prop :=
  ∀ (s : State) (base len : Word) (m : Nat), ∃ t,
    transactAll ((Pseudo.encOpen base len).assemble ++
        List.replicate (4 * ceilDiv len.toNat 3 + (m + 1)) (encode .encPull)) s =
      some (List.replicate 3 (okResponse 0#32) ++
        dataResponses (encodeStream (inputBytes s.imem base len)) ++
        List.replicate (m + 1) (okResponse 0x00000100#32), t) ∧
    (encodeStream (inputBytes s.imem base len)).length = 4 * ceilDiv len.toNat 3 ∧
    t.enc.phase = .exhausted ∧ t.enc.pos = len ∧ t.dec = s.dec ∧ t.imem = s.imem

/-- R180, R191 to R194, R206, R246: open the decoder on any input and pull: it answers the bytes of the valid
prefix in order, and then END for ever with status ok, or FAIL for ever with status error. -/
def Obligations.DecoderDeliversTheDecodingOfItsInput : Prop :=
  ∀ (s : State) (base len : Word) (m : Nat) (bytes : List Byte) (ok : Bool),
    decodeStream (inputBytes s.imem base len) = (bytes, ok) → ∃ t,
    transactAll ((Pseudo.decOpen base len).assemble ++
        List.replicate (bytes.length + (m + 1)) (encode .decPull)) s =
      some (List.replicate 3 (okResponse 0#32) ++ dataResponses bytes ++
        List.replicate (m + 1) (okResponse (if ok then 0x00000100#32 else 0x00000200#32)), t) ∧
    t.dec.phase = (if ok then .exhausted else .failed) ∧ t.dec.err = !ok ∧
    exec .decRstatus t = .next { t with
      response := some ⟨if ok then 0x00000004#32 else 0x00000007#32, false⟩, imemReads := [] } ∧
    t.enc = s.enc ∧ t.imem = s.imem

/-- R196: the round trip. Encode any bytes of IMEM; in any state whose IMEM holds the characters delivered,
the decoder opened on them answers exactly those bytes, then END, and its status reads ok. -/
def Obligations.DecodingTheEncodersOutputGivesTheInput : Prop :=
  ∀ (s : State) (base len : Word) (chars : List Byte) (s1 : State) (n : Nat),
    transactAll ((Pseudo.encOpen base len).assemble ++
        List.replicate (n + 1) (encode .encPull)) s =
      some (List.replicate 3 (okResponse 0#32) ++ dataResponses chars ++
        [okResponse 0x00000100#32], s1) →
    chars.length < 2 ^ 32 →
    ∀ (d : State) (dbase : Word),
      inputBytes d.imem dbase (BitVec.ofNat 32 chars.length) = chars → ∃ d1,
      transactAll ((Pseudo.decOpen dbase (BitVec.ofNat 32 chars.length)).assemble ++
          List.replicate (len.toNat + 1) (encode .decPull)) d =
        some (List.replicate 3 (okResponse 0#32) ++ dataResponses (inputBytes s.imem base len) ++
          [okResponse 0x00000100#32], d1) ∧
      d1.dec.phase = .exhausted ∧ d1.dec.err = false
end

