-- ==== Sys2Proof/Laws/Chunk.lean ====
section
/-! SUPPORT. The alphabet, the chunk functions, the addresses of a chunk, and the pull result words. -/

namespace Sys2Proof.Machine

/-- R114: the decoder inverts the encoding alphabet. -/
theorem classify_encAlpha : ∀ v : Six, classify (encAlpha v) = .value v := by decide

/-- R113, R114: '=' alone is padding. -/
theorem classify_eq_pad_iff : ∀ c : Byte, classify c = .pad ↔ c = 0x3D#8 := by decide

/-- Each bit of the accumulator (R141). -/
theorem packChunk_getLsbD (k : Nat) (b0 b1 b2 : Byte) (i : Nat) : (packChunk k b0 b1 b2).getLsbD i =
    if i < 8 then (k = 3 && b2.getLsbD i) else if i < 16 then (decide (2 ≤ k) && b1.getLsbD (i - 8)) else b0.getLsbD (i - 16) := by
  simp only [packChunk, BitVec.getLsbD_or, BitVec.getLsbD_shiftLeft, BitVec.getLsbD_setWidth]
  by_cases h1 : i < 8
  · have : i < 24 := by omega
    have : i < 16 := by omega
    by_cases hk : k = 3 <;> simp [*]
  · by_cases h2 : i < 16
    · have : i < 24 := by omega
      have : i - 8 < 24 := by omega
      have hc : b2.getLsbD i = false := BitVec.getLsbD_of_ge _ _ (by omega)
      by_cases hk : k = 3
      · subst hk; simp [*]
      · by_cases hk2 : 2 ≤ k <;> simp [*]
    · have hc : b2.getLsbD i = false := BitVec.getLsbD_of_ge _ _ (by omega)
      have hc1 : b1.getLsbD (i-8) = false := BitVec.getLsbD_of_ge _ _ (by omega)
      by_cases h3 : i < 24
      · have : i - 8 < 24 := by omega
        have : i - 16 < 24 := by omega
        by_cases hk : k = 3
        · subst hk; simp [*]
        · by_cases hk2 : 2 ≤ k <;> simp [*]
      · have hc2 : b0.getLsbD (i-16) = false := BitVec.getLsbD_of_ge _ _ (by omega)
        simp [*]

/-- The output bytes as concatenated bits (R187). -/
theorem unpack_eq_append : (∀ v0 v1 : Six, unpack0 v0 v1 = v0 ++ v1.extractLsb' 4 2) ∧ (∀ v0 v1 : Six, unpack1 v0 v1 = v0.extractLsb' 0 4 ++ v1.extractLsb' 2 4) ∧ 
   (∀ v0 v1 : Six, unpack2 v0 v1 = v0.extractLsb' 0 2 ++ v1) := by
  refine ⟨?_, ?_, ?_⟩ <;> intro a b <;> simp only [unpack0, unpack1, unpack2] <;>
  · apply BitVec.eq_of_getLsbD_eq
    intro i hi
    have : i = 0 ∨ i = 1 ∨ i = 2 ∨ i = 3 ∨ i = 4 ∨ i = 5 ∨ i = 6 ∨ i = 7 := by omega
    rcases this with h|h|h|h|h|h|h|h <;> subst h <;> simp only [BitVec.getLsbD_or, BitVec.getLsbD_append, BitVec.getLsbD_shiftLeft, BitVec.getLsbD_ushiftRight, BitVec.getLsbD_setWidth, BitVec.getLsbD_extractLsb'] <;> simp

/-- R108, the four pull result words. -/
theorem dataWord_eq (b : Byte) : dataWord b = b.setWidth 32 := by
  simp [dataWord, pullWord, PullKind.code]

theorem endWord_eq : endWord = 0x100#32 := by decide

theorem failWord_eq : failWord = 0x200#32 := by decide

theorem unboundWord_eq : unboundWord = 0x300#32 := by decide

/-- The addresses of a chunk, written out (R73). -/
theorem chunkAddrs_take (b p : Word) (k : Nat) (hk : k ≤ 3) : chunkAddrs b p k = [b + p, b + p + 1#32, b + p + 2#32].take k := by
  have : k = 0 ∨ k = 1 ∨ k = 2 ∨ k = 3 := by omega
  rcases this with h|h|h|h <;> subst h <;> simp [chunkAddrs, chunkAddr, List.range_succ]

theorem chunkAddrs_four (b p : Word) : chunkAddrs b p 4 = [b + p, b + p + 1#32, b + p + 2#32, b + p + 3#32] := by
  simp [chunkAddrs, chunkAddr, List.range_succ]

theorem chunkAddrs_length (b p : Word) (k : Nat) : (chunkAddrs b p k).length = k := by simp [chunkAddrs]

theorem chunkAddrs_getElem (b p : Word) (k j : Nat) (hj : j < k) : (chunkAddrs b p k)[j]? = some (b + p + BitVec.ofNat 32 j) := by
  simp [chunkAddrs, hj, chunkAddr]

theorem chunkAddr_eq (b p : Word) (j : Nat) : chunkAddr b p j = b + BitVec.ofNat 32 (p.toNat + j) := by
  unfold chunkAddr
  rw [BitVec.ofNat_add, BitVec.ofNat_toNat, BitVec.setWidth_eq, BitVec.add_assoc]

/-- The bound range, byte by byte (R33, R37, R73). -/
theorem inRange_iff (a b l : Word) : inRange a b l = true ↔ ∃ i, i < l.toNat ∧ a = b + BitVec.ofNat 32 i := by
  simp only [inRange, decide_eq_true_eq]
  constructor
  · intro h; refine ⟨(a - b).toNat, h, ?_⟩
    rw [BitVec.ofNat_toNat, BitVec.setWidth_eq, BitVec.add_comm, BitVec.sub_add_cancel]
  · rintro ⟨i, hi, rfl⟩
    have := l.isLt
    have e : b + BitVec.ofNat 32 i - b = BitVec.ofNat 32 i := by rw [BitVec.add_comm, BitVec.add_sub_cancel]
    rw [e, BitVec.toNat_ofNat, Nat.mod_eq_of_lt (by omega)]; exact hi

theorem inputBytes_length (m b l) : (inputBytes m b l).length = l.toNat := by simp [inputBytes]

/-- The input from the cursor on (R73). -/
theorem inputBytes_drop (m : Memory) (b l : Word) (p : Nat) (h : p < l.toNat) :
    (inputBytes m b l).drop p = iMemRead m (b + BitVec.ofNat 32 p) :: (inputBytes m b l).drop (p + 1) := by
  have hl : p < (inputBytes m b l).length := by simpa [inputBytes] using h
  rw [List.drop_eq_getElem_cons hl]
  simp [inputBytes]

theorem inputBytes_drop_end (m : Memory) (b l : Word) (p : Nat) (h : l.toNat ≤ p) : (inputBytes m b l).drop p = [] := by
  apply List.drop_eq_nil_of_le; simpa [inputBytes] using h

end Sys2Proof.Machine
end

