-- ==== Sys2Proof/Laws/Decode.lean ====
section
/-! SUPPORT. The transaction word: its fields, and what a word that matches a row of the opcode map decodes to. -/

namespace Sys2Proof

/-- The bits of an assembled word (R100). -/
theorem TxnWord.make_getLsbD (a : Bool) (b : WordAddr) (c : Word) (i : Nat) : (TxnWord.make a b c).getLsbD i =
    if i < 32 then c.getLsbD i else if i < 38 then b.getLsbD (i - 32) else (i == 38 && a) := by
  simp only [TxnWord.make, BitVec.getLsbD_or, BitVec.getLsbD_shiftLeft, BitVec.getLsbD_setWidth, BitVec.getLsbD_ofBool]
  by_cases h1 : i < 32
  · have : i < 39 := by omega
    have : i < 38 := by omega
    simp [*]
  · by_cases h2 : i < 38
    · have : i < 39 := by omega
      have : i - 32 < 39 := by omega
      have hc : c.getLsbD i = false := BitVec.getLsbD_of_ge _ _ (by omega)
      simp [*]
    · by_cases h3 : i = 38
      · subst h3; simp
      · have : ¬ i < 39 := by omega
        simp [*]

theorem TxnWord.make_we (a b c) : (TxnWord.make a b c).we = a := by
  simp only [TxnWord.we, TxnWord.make_getLsbD]; simp

theorem TxnWord.make_wa (a b c) : (TxnWord.make a b c).wa = b := by
  apply BitVec.eq_of_getLsbD_eq
  intro i hi
  have : 32 + i < 38 := by omega
  simp [TxnWord.wa, TxnWord.make_getLsbD, hi, this]

theorem TxnWord.make_wdata (a b c) : (TxnWord.make a b c).wdata = c := by
  apply BitVec.eq_of_getLsbD_eq
  intro i hi
  simp [TxnWord.wdata, TxnWord.make_getLsbD, hi]

/-- A word is its three fields (R100). -/
theorem TxnWord.make_eta (t : TxnWord) : TxnWord.make t.we t.wa t.wdata = t := by
  apply BitVec.eq_of_getLsbD_eq
  intro i hi
  rw [TxnWord.make_getLsbD]
  by_cases h1 : i < 32
  · simp [h1, TxnWord.wdata]
  · by_cases h2 : i < 38
    · have : i - 32 < 6 := by omega
      have h4 : 32 + (i - 32) = i := by omega
      simp only [h1, h2, TxnWord.wa, if_true, if_false, BitVec.getLsbD_extractLsb', this, h4, decide_true, Bool.true_and]
    · have : i = 38 := by omega
      subst this; simp [TxnWord.we]

/-- What a row of the opcode map looks at: WE and WA (R103). -/
theorem TxnWord.make_and_mask (we : Bool) (wa : WordAddr) (d) : TxnWord.make we wa d &&& 0x7F00000000#39 = TxnWord.make we wa 0 := by
  apply BitVec.eq_of_getLsbD_eq
  intro i hi
  rw [show (0x7F00000000#39) = TxnWord.make true 0x3F#6 0#32 by decide, BitVec.getLsbD_and, TxnWord.make_getLsbD, TxnWord.make_getLsbD, TxnWord.make_getLsbD]
  by_cases h1 : i < 32
  · simp [h1]
  · by_cases h2 : i < 38
    · have : i = 32 ∨ i = 33 ∨ i = 34 ∨ i = 35 ∨ i = 36 ∨ i=37 := by omega
      rcases this with h|h|h|h|h|h <;> subst h <;> simp
    · have : i = 38 := by omega
      subst this; simp

theorem we_wa_of_mask (t : TxnWord) (we wa) (h : t &&& 0x7F00000000#39 = TxnWord.make we wa 0) : t.we = we ∧ t.wa = wa := by
  have := TxnWord.make_and_mask t.we t.wa t.wdata
  rw [TxnWord.make_eta, h] at this
  exact ⟨by simpa only [TxnWord.make_we] using (congrArg TxnWord.we this).symm,
    by simpa only [TxnWord.make_wa] using (congrArg TxnWord.wa this).symm⟩

/-- A word that matches a row decodes by that row (R103). -/
theorem decode_of_mask {t : TxnWord} {m : TxnWord} (h : t &&& 0x7F00000000#39 = m) (we wa) (hm : m = TxnWord.make we wa 0) :
   decode t = if we then decodeWrite wa (t.extractLsb' 0 32) else decodeRead wa := by
  subst hm
  obtain ⟨h1, h2⟩ := we_wa_of_mask t we wa h
  unfold decode; rw [h1, h2]; rfl

end Sys2Proof
end

