-- ==== Sys2Proof/Laws/State.lean ====
section
/-! SUPPORT. One lemma for each field of each update of the state, so that no proof unfolds a record update. -/

namespace Sys2Proof.Machine

/-! ## The host port -/

@[simp] theorem respond_enc (s : State) (d : Word) (e : Bool) (rs : List Word) : (s.respond d e rs).enc = s.enc := rfl
@[simp] theorem respond_dec (s : State) (d : Word) (e : Bool) (rs : List Word) : (s.respond d e rs).dec = s.dec := rfl
@[simp] theorem respond_imem (s : State) (d : Word) (e : Bool) (rs : List Word) : (s.respond d e rs).imem = s.imem := rfl
@[simp] theorem respond_inbox (s : State) (d : Word) (e : Bool) (rs : List Word) : (s.respond d e rs).inbox = s.inbox := rfl
@[simp] theorem respond_response (s : State) (d : Word) (e : Bool) (rs : List Word) : (s.respond d e rs).response = some ⟨d, e⟩ := rfl
@[simp] theorem respond_imemReads (s : State) (d : Word) (e : Bool) (rs : List Word) : (s.respond d e rs).imemReads = rs := rfl

@[simp] theorem noResponse_enc (s : State) : (s.noResponse).enc = s.enc := rfl
@[simp] theorem noResponse_dec (s : State) : (s.noResponse).dec = s.dec := rfl
@[simp] theorem noResponse_imem (s : State) : (s.noResponse).imem = s.imem := rfl
@[simp] theorem noResponse_inbox (s : State) : (s.noResponse).inbox = s.inbox := rfl
@[simp] theorem noResponse_response (s : State) : (s.noResponse).response = none := rfl
@[simp] theorem noResponse_imemReads (s : State) : (s.noResponse).imemReads = [] := rfl

@[simp] theorem offer_enc (s : State) (e : HostEvent) : (s.offer e).enc = s.enc := rfl
@[simp] theorem offer_dec (s : State) (e : HostEvent) : (s.offer e).dec = s.dec := rfl
@[simp] theorem offer_imem (s : State) (e : HostEvent) : (s.offer e).imem = s.imem := rfl
@[simp] theorem offer_inbox (s : State) (e : HostEvent) : (s.offer e).inbox = e :: s.inbox := rfl
@[simp] theorem offer_response (s : State) (e : HostEvent) : (s.offer e).response = s.response := rfl
@[simp] theorem offer_imemReads (s : State) (e : HostEvent) : (s.offer e).imemReads = s.imemReads := rfl

@[simp] theorem raiseBusError_enc (s : State) : (raiseBusError s).enc = s.enc := rfl
@[simp] theorem raiseBusError_dec (s : State) : (raiseBusError s).dec = s.dec := rfl
@[simp] theorem raiseBusError_imem (s : State) : (raiseBusError s).imem = s.imem := rfl
@[simp] theorem raiseBusError_inbox (s : State) : (raiseBusError s).inbox = s.inbox := rfl
@[simp] theorem raiseBusError_response (s : State) : (raiseBusError s).response = some ⟨0, true⟩ := rfl
@[simp] theorem raiseBusError_imemReads (s : State) : (raiseBusError s).imemReads = [] := rfl

@[simp] theorem raiseDecodeError_enc (s : State) (rs : List Word) : (raiseDecodeError s rs).enc = s.enc := rfl
@[simp] theorem raiseDecodeError_dec (s : State) (rs : List Word) : (raiseDecodeError s rs).dec = s.dec.fail := rfl
@[simp] theorem raiseDecodeError_imem (s : State) (rs : List Word) : (raiseDecodeError s rs).imem = s.imem := rfl
@[simp] theorem raiseDecodeError_inbox (s : State) (rs : List Word) : (raiseDecodeError s rs).inbox = s.inbox := rfl
@[simp] theorem raiseDecodeError_response (s : State) (rs : List Word) : (raiseDecodeError s rs).response = some ⟨0x00000200#32, false⟩ := rfl
@[simp] theorem raiseDecodeError_imemReads (s : State) (rs : List Word) : (raiseDecodeError s rs).imemReads = rs := rfl

@[simp] theorem assertReset_enc (s : State) : (assertReset s).enc = s.enc.afterReset := rfl
@[simp] theorem assertReset_dec (s : State) : (assertReset s).dec = s.dec.afterReset := rfl
@[simp] theorem assertReset_imem (s : State) : (assertReset s).imem = s.imem := rfl
@[simp] theorem assertReset_inbox (s : State) : (assertReset s).inbox = s.inbox := rfl
@[simp] theorem assertReset_response (s : State) : (assertReset s).response = none := rfl
@[simp] theorem assertReset_imemReads (s : State) : (assertReset s).imemReads = [] := rfl

@[simp] theorem hostImemWrite_enc (a : Word) (v : Byte) (s : State) : (hostImemWrite a v s).enc = s.enc.hostWrote a := rfl
@[simp] theorem hostImemWrite_dec (a : Word) (v : Byte) (s : State) : (hostImemWrite a v s).dec = s.dec.hostWrote a := rfl
@[simp] theorem hostImemWrite_imem (a : Word) (v : Byte) (s : State) : (hostImemWrite a v s).imem = iMemWrite s.imem a v := rfl
@[simp] theorem hostImemWrite_inbox (a : Word) (v : Byte) (s : State) : (hostImemWrite a v s).inbox = s.inbox := rfl
@[simp] theorem hostImemWrite_response (a : Word) (v : Byte) (s : State) : (hostImemWrite a v s).response = none := rfl
@[simp] theorem hostImemWrite_imemReads (a : Word) (v : Byte) (s : State) : (hostImemWrite a v s).imemReads = [] := rfl

@[simp] theorem encDeliver_enc (s : State) (rs : List Word) : (encDeliver s rs).enc = { s.enc with rd := s.enc.rd + 1 } := rfl
@[simp] theorem encDeliver_dec (s : State) (rs : List Word) : (encDeliver s rs).dec = s.dec := rfl
@[simp] theorem encDeliver_imem (s : State) (rs : List Word) : (encDeliver s rs).imem = s.imem := rfl
@[simp] theorem encDeliver_inbox (s : State) (rs : List Word) : (encDeliver s rs).inbox = s.inbox := rfl
@[simp] theorem encDeliver_response (s : State) (rs : List Word) : (encDeliver s rs).response = some ⟨dataWord (s.enc.stage.get s.enc.rd), false⟩ := rfl
@[simp] theorem encDeliver_imemReads (s : State) (rs : List Word) : (encDeliver s rs).imemReads = rs := rfl

@[simp] theorem decDeliver_enc (s : State) (rs : List Word) : (decDeliver s rs).enc = s.enc := rfl
@[simp] theorem decDeliver_dec (s : State) (rs : List Word) : (decDeliver s rs).dec = { s.dec with rd := s.dec.rd + 1 } := rfl
@[simp] theorem decDeliver_imem (s : State) (rs : List Word) : (decDeliver s rs).imem = s.imem := rfl
@[simp] theorem decDeliver_inbox (s : State) (rs : List Word) : (decDeliver s rs).inbox = s.inbox := rfl
@[simp] theorem decDeliver_response (s : State) (rs : List Word) : (decDeliver s rs).response = some ⟨dataWord (s.dec.stage.get s.dec.rd), false⟩ := rfl
@[simp] theorem decDeliver_imemReads (s : State) (rs : List Word) : (decDeliver s rs).imemReads = rs := rfl

/-! ## The encoder unit -/

@[simp] theorem EncUnit.bind_phase (u : EncUnit) : (u.bind).phase = .streaming := rfl
@[simp] theorem EncUnit.bind_bbase (u : EncUnit) : (u.bind).bbase = u.base := rfl
@[simp] theorem EncUnit.bind_blen (u : EncUnit) : (u.bind).blen = u.len := rfl
@[simp] theorem EncUnit.bind_pos (u : EncUnit) : (u.bind).pos = 0 := rfl
@[simp] theorem EncUnit.bind_stage (u : EncUnit) : (u.bind).stage = u.stage := rfl
@[simp] theorem EncUnit.bind_valid (u : EncUnit) : (u.bind).valid = 0 := rfl
@[simp] theorem EncUnit.bind_rd (u : EncUnit) : (u.bind).rd = 0 := rfl
@[simp] theorem EncUnit.bind_base (u : EncUnit) : (u.bind).base = u.base := rfl
@[simp] theorem EncUnit.bind_len (u : EncUnit) : (u.bind).len = u.len := rfl
@[simp] theorem EncUnit.bind_broken (u : EncUnit) : (u.bind).broken = false := rfl
@[simp] theorem EncUnit.bind_draws (u : EncUnit) : (u.bind).draws = u.draws := rfl

@[simp] theorem EncUnit.afterReset_phase (u : EncUnit) : (u.afterReset).phase = .unbound := rfl
@[simp] theorem EncUnit.afterReset_bbase (u : EncUnit) : (u.afterReset).bbase = 0 := rfl
@[simp] theorem EncUnit.afterReset_blen (u : EncUnit) : (u.afterReset).blen = 0 := rfl
@[simp] theorem EncUnit.afterReset_pos (u : EncUnit) : (u.afterReset).pos = 0 := rfl
@[simp] theorem EncUnit.afterReset_stage (u : EncUnit) : (u.afterReset).stage = ⟨0, 0, 0, 0⟩ := rfl
@[simp] theorem EncUnit.afterReset_valid (u : EncUnit) : (u.afterReset).valid = 0 := rfl
@[simp] theorem EncUnit.afterReset_rd (u : EncUnit) : (u.afterReset).rd = 0 := rfl
@[simp] theorem EncUnit.afterReset_base (u : EncUnit) : (u.afterReset).base = 0 := rfl
@[simp] theorem EncUnit.afterReset_len (u : EncUnit) : (u.afterReset).len = 0 := rfl
@[simp] theorem EncUnit.afterReset_broken (u : EncUnit) : (u.afterReset).broken = false := rfl
@[simp] theorem EncUnit.afterReset_draws (u : EncUnit) : (u.afterReset).draws = u.draws := rfl

@[simp] theorem EncUnit.hostWrote_phase (u : EncUnit) (a : Word) : (u.hostWrote a).phase = u.phase := rfl
@[simp] theorem EncUnit.hostWrote_bbase (u : EncUnit) (a : Word) : (u.hostWrote a).bbase = u.bbase := rfl
@[simp] theorem EncUnit.hostWrote_blen (u : EncUnit) (a : Word) : (u.hostWrote a).blen = u.blen := rfl
@[simp] theorem EncUnit.hostWrote_pos (u : EncUnit) (a : Word) : (u.hostWrote a).pos = u.pos := rfl
@[simp] theorem EncUnit.hostWrote_stage (u : EncUnit) (a : Word) : (u.hostWrote a).stage = u.stage := rfl
@[simp] theorem EncUnit.hostWrote_valid (u : EncUnit) (a : Word) : (u.hostWrote a).valid = u.valid := rfl
@[simp] theorem EncUnit.hostWrote_rd (u : EncUnit) (a : Word) : (u.hostWrote a).rd = u.rd := rfl
@[simp] theorem EncUnit.hostWrote_base (u : EncUnit) (a : Word) : (u.hostWrote a).base = u.base := rfl
@[simp] theorem EncUnit.hostWrote_len (u : EncUnit) (a : Word) : (u.hostWrote a).len = u.len := rfl
@[simp] theorem EncUnit.hostWrote_broken (u : EncUnit) (a : Word) : (u.hostWrote a).broken = (u.broken || (u.phase == .streaming && inRange a u.bbase u.blen)) := rfl
@[simp] theorem EncUnit.hostWrote_draws (u : EncUnit) (a : Word) : (u.hostWrote a).draws = u.draws := rfl

@[simp] theorem EncUnit.refill_phase (u : EncUnit) (m : Memory) : (u.refill m).phase = u.phase := rfl
@[simp] theorem EncUnit.refill_bbase (u : EncUnit) (m : Memory) : (u.refill m).bbase = u.bbase := rfl
@[simp] theorem EncUnit.refill_blen (u : EncUnit) (m : Memory) : (u.refill m).blen = u.blen := rfl
@[simp] theorem EncUnit.refill_pos (u : EncUnit) (m : Memory) : (u.refill m).pos = u.pos + BitVec.ofNat 32 u.chunkSize := rfl
@[simp] theorem EncUnit.refill_valid (u : EncUnit) (m : Memory) : (u.refill m).valid = 4 := rfl
@[simp] theorem EncUnit.refill_rd (u : EncUnit) (m : Memory) : (u.refill m).rd = 0 := rfl
@[simp] theorem EncUnit.refill_base (u : EncUnit) (m : Memory) : (u.refill m).base = u.base := rfl
@[simp] theorem EncUnit.refill_len (u : EncUnit) (m : Memory) : (u.refill m).len = u.len := rfl
@[simp] theorem EncUnit.refill_broken (u : EncUnit) (m : Memory) : (u.refill m).broken = u.broken := rfl
@[simp] theorem EncUnit.refill_draws (u : EncUnit) (m : Memory) : (u.refill m).draws = drawsAfter u.broken u.draws u.chunkSize := rfl

/-! ## The decoder unit -/

@[simp] theorem DecUnit.bind_phase (u : DecUnit) : (u.bind).phase = .streaming := rfl
@[simp] theorem DecUnit.bind_bbase (u : DecUnit) : (u.bind).bbase = u.base := rfl
@[simp] theorem DecUnit.bind_blen (u : DecUnit) : (u.bind).blen = u.len := rfl
@[simp] theorem DecUnit.bind_pos (u : DecUnit) : (u.bind).pos = 0 := rfl
@[simp] theorem DecUnit.bind_stage (u : DecUnit) : (u.bind).stage = u.stage := rfl
@[simp] theorem DecUnit.bind_valid (u : DecUnit) : (u.bind).valid = 0 := rfl
@[simp] theorem DecUnit.bind_rd (u : DecUnit) : (u.bind).rd = 0 := rfl
@[simp] theorem DecUnit.bind_err (u : DecUnit) : (u.bind).err = false := rfl
@[simp] theorem DecUnit.bind_base (u : DecUnit) : (u.bind).base = u.base := rfl
@[simp] theorem DecUnit.bind_len (u : DecUnit) : (u.bind).len = u.len := rfl
@[simp] theorem DecUnit.bind_broken (u : DecUnit) : (u.bind).broken = false := rfl
@[simp] theorem DecUnit.bind_draws (u : DecUnit) : (u.bind).draws = u.draws := rfl

@[simp] theorem DecUnit.fail_phase (u : DecUnit) : (u.fail).phase = .failed := rfl
@[simp] theorem DecUnit.fail_bbase (u : DecUnit) : (u.fail).bbase = u.bbase := rfl
@[simp] theorem DecUnit.fail_blen (u : DecUnit) : (u.fail).blen = u.blen := rfl
@[simp] theorem DecUnit.fail_pos (u : DecUnit) : (u.fail).pos = u.pos := rfl
@[simp] theorem DecUnit.fail_stage (u : DecUnit) : (u.fail).stage = u.stage := rfl
@[simp] theorem DecUnit.fail_valid (u : DecUnit) : (u.fail).valid = u.valid := rfl
@[simp] theorem DecUnit.fail_rd (u : DecUnit) : (u.fail).rd = u.rd := rfl
@[simp] theorem DecUnit.fail_err (u : DecUnit) : (u.fail).err = true := rfl
@[simp] theorem DecUnit.fail_base (u : DecUnit) : (u.fail).base = u.base := rfl
@[simp] theorem DecUnit.fail_len (u : DecUnit) : (u.fail).len = u.len := rfl
@[simp] theorem DecUnit.fail_broken (u : DecUnit) : (u.fail).broken = u.broken := rfl
@[simp] theorem DecUnit.fail_draws (u : DecUnit) : (u.fail).draws = u.draws := rfl

@[simp] theorem DecUnit.afterReads_phase (u : DecUnit) : (u.afterReads).phase = u.phase := rfl
@[simp] theorem DecUnit.afterReads_bbase (u : DecUnit) : (u.afterReads).bbase = u.bbase := rfl
@[simp] theorem DecUnit.afterReads_blen (u : DecUnit) : (u.afterReads).blen = u.blen := rfl
@[simp] theorem DecUnit.afterReads_pos (u : DecUnit) : (u.afterReads).pos = u.pos := rfl
@[simp] theorem DecUnit.afterReads_stage (u : DecUnit) : (u.afterReads).stage = u.stage := rfl
@[simp] theorem DecUnit.afterReads_valid (u : DecUnit) : (u.afterReads).valid = u.valid := rfl
@[simp] theorem DecUnit.afterReads_rd (u : DecUnit) : (u.afterReads).rd = u.rd := rfl
@[simp] theorem DecUnit.afterReads_err (u : DecUnit) : (u.afterReads).err = u.err := rfl
@[simp] theorem DecUnit.afterReads_base (u : DecUnit) : (u.afterReads).base = u.base := rfl
@[simp] theorem DecUnit.afterReads_len (u : DecUnit) : (u.afterReads).len = u.len := rfl
@[simp] theorem DecUnit.afterReads_broken (u : DecUnit) : (u.afterReads).broken = u.broken := rfl
@[simp] theorem DecUnit.afterReads_draws (u : DecUnit) : (u.afterReads).draws = drawsAfter u.broken u.draws 4 := rfl

@[simp] theorem DecUnit.afterReset_phase (u : DecUnit) : (u.afterReset).phase = .unbound := rfl
@[simp] theorem DecUnit.afterReset_bbase (u : DecUnit) : (u.afterReset).bbase = 0 := rfl
@[simp] theorem DecUnit.afterReset_blen (u : DecUnit) : (u.afterReset).blen = 0 := rfl
@[simp] theorem DecUnit.afterReset_pos (u : DecUnit) : (u.afterReset).pos = 0 := rfl
@[simp] theorem DecUnit.afterReset_stage (u : DecUnit) : (u.afterReset).stage = ⟨0, 0, 0⟩ := rfl
@[simp] theorem DecUnit.afterReset_valid (u : DecUnit) : (u.afterReset).valid = 0 := rfl
@[simp] theorem DecUnit.afterReset_rd (u : DecUnit) : (u.afterReset).rd = 0 := rfl
@[simp] theorem DecUnit.afterReset_err (u : DecUnit) : (u.afterReset).err = false := rfl
@[simp] theorem DecUnit.afterReset_base (u : DecUnit) : (u.afterReset).base = 0 := rfl
@[simp] theorem DecUnit.afterReset_len (u : DecUnit) : (u.afterReset).len = 0 := rfl
@[simp] theorem DecUnit.afterReset_broken (u : DecUnit) : (u.afterReset).broken = false := rfl
@[simp] theorem DecUnit.afterReset_draws (u : DecUnit) : (u.afterReset).draws = u.draws := rfl

@[simp] theorem DecUnit.hostWrote_phase (u : DecUnit) (a : Word) : (u.hostWrote a).phase = u.phase := rfl
@[simp] theorem DecUnit.hostWrote_bbase (u : DecUnit) (a : Word) : (u.hostWrote a).bbase = u.bbase := rfl
@[simp] theorem DecUnit.hostWrote_blen (u : DecUnit) (a : Word) : (u.hostWrote a).blen = u.blen := rfl
@[simp] theorem DecUnit.hostWrote_pos (u : DecUnit) (a : Word) : (u.hostWrote a).pos = u.pos := rfl
@[simp] theorem DecUnit.hostWrote_stage (u : DecUnit) (a : Word) : (u.hostWrote a).stage = u.stage := rfl
@[simp] theorem DecUnit.hostWrote_valid (u : DecUnit) (a : Word) : (u.hostWrote a).valid = u.valid := rfl
@[simp] theorem DecUnit.hostWrote_rd (u : DecUnit) (a : Word) : (u.hostWrote a).rd = u.rd := rfl
@[simp] theorem DecUnit.hostWrote_err (u : DecUnit) (a : Word) : (u.hostWrote a).err = u.err := rfl
@[simp] theorem DecUnit.hostWrote_base (u : DecUnit) (a : Word) : (u.hostWrote a).base = u.base := rfl
@[simp] theorem DecUnit.hostWrote_len (u : DecUnit) (a : Word) : (u.hostWrote a).len = u.len := rfl
@[simp] theorem DecUnit.hostWrote_broken (u : DecUnit) (a : Word) : (u.hostWrote a).broken = (u.broken || (u.phase == .streaming && inRange a u.bbase u.blen)) := rfl
@[simp] theorem DecUnit.hostWrote_draws (u : DecUnit) (a : Word) : (u.hostWrote a).draws = u.draws := rfl

@[simp] theorem DecUnit.refill_phase (u : DecUnit) (c : DecodedChunk) : (u.refill c).phase = u.phase := rfl
@[simp] theorem DecUnit.refill_bbase (u : DecUnit) (c : DecodedChunk) : (u.refill c).bbase = u.bbase := rfl
@[simp] theorem DecUnit.refill_blen (u : DecUnit) (c : DecodedChunk) : (u.refill c).blen = u.blen := rfl
@[simp] theorem DecUnit.refill_pos (u : DecUnit) (c : DecodedChunk) : (u.refill c).pos = u.pos + 4 := rfl
@[simp] theorem DecUnit.refill_stage (u : DecUnit) (c : DecodedChunk) : (u.refill c).stage = c.stage := rfl
@[simp] theorem DecUnit.refill_valid (u : DecUnit) (c : DecodedChunk) : (u.refill c).valid = c.n := rfl
@[simp] theorem DecUnit.refill_rd (u : DecUnit) (c : DecodedChunk) : (u.refill c).rd = 0 := rfl
@[simp] theorem DecUnit.refill_err (u : DecUnit) (c : DecodedChunk) : (u.refill c).err = u.err := rfl
@[simp] theorem DecUnit.refill_base (u : DecUnit) (c : DecodedChunk) : (u.refill c).base = u.base := rfl
@[simp] theorem DecUnit.refill_len (u : DecUnit) (c : DecodedChunk) : (u.refill c).len = u.len := rfl
@[simp] theorem DecUnit.refill_broken (u : DecUnit) (c : DecodedChunk) : (u.refill c).broken = u.broken := rfl
@[simp] theorem DecUnit.refill_draws (u : DecUnit) (c : DecodedChunk) : (u.refill c).draws = drawsAfter u.broken u.draws 4 := rfl
end Sys2Proof.Machine
end

