-- ==== Sys2Proof/Laws/Exec.lean ====
section
/-! SUPPORT. What a pull can do, said once for each unit; what a transaction does not look at; and runs of transactions. -/

namespace Sys2Proof.Machine

/-! ## The pulls -/

/-- All that ENC_PULL can do (R156). -/
theorem encPull_cases (s : State) :
    (s.enc.phase = .unbound ∧ exec .encPull s = .next (s.respond unboundWord false [])) ∨
    (s.enc.phase = .exhausted ∧ exec .encPull s = .next (s.respond endWord false [])) ∨
    (s.enc.phase = .streaming ∧ s.enc.rd = s.enc.valid ∧ s.enc.pos = s.enc.blen ∧
      exec .encPull s = .next ({ s with enc := { s.enc with phase := .exhausted } }.respond endWord false [])) ∨
    (s.enc.phase = .streaming ∧ s.enc.rd = s.enc.valid ∧ s.enc.pos ≠ s.enc.blen ∧
      exec .encPull s = .next (encDeliver { s with enc := s.enc.refill s.imem } (chunkAddrs s.enc.bbase s.enc.pos s.enc.chunkSize))) ∨
    (s.enc.phase = .streaming ∧ s.enc.rd ≠ s.enc.valid ∧ exec .encPull s = .next (encDeliver s [])) := by
  cases h : s.enc.phase
  · left; exact ⟨rfl, by simp [exec, execEncPull, h]⟩
  · right; right
    by_cases h1 : s.enc.rd = s.enc.valid
    · by_cases h2 : s.enc.pos = s.enc.blen
      · left; exact ⟨rfl, h1, h2, by simp [exec, execEncPull, h, EncUnit.drained, h1, h2]⟩
      · right; left; exact ⟨rfl, h1, h2, by simp [exec, execEncPull, h, EncUnit.drained, h1, h2]⟩
    · right; right; exact ⟨rfl, h1, by simp [exec, execEncPull, h, EncUnit.drained, h1]⟩
  · right; left; exact ⟨rfl, by simp [exec, execEncPull, h]⟩

/-- All that DEC_PULL can do (R206, R246). -/
theorem decPull_cases (s : State) :
    (s.dec.phase = .unbound ∧ exec .decPull s = .next (s.respond unboundWord false [])) ∨
    (s.dec.phase = .exhausted ∧ exec .decPull s = .next (s.respond endWord false [])) ∨
    (s.dec.phase = .failed ∧ exec .decPull s = .next (s.respond failWord false [])) ∨
    (s.dec.phase = .streaming ∧ s.dec.rd = s.dec.valid ∧ s.dec.pos = s.dec.blen ∧
      exec .decPull s = .next ({ s with dec := { s.dec with phase := .exhausted } }.respond endWord false [])) ∨
    (s.dec.phase = .streaming ∧ s.dec.rd = s.dec.valid ∧ s.dec.pos ≠ s.dec.blen ∧
      s.dec.blen.toNat - s.dec.pos.toNat < 4 ∧ exec .decPull s = .next (raiseDecodeError s [])) ∨
    (s.dec.phase = .streaming ∧ s.dec.rd = s.dec.valid ∧ s.dec.pos ≠ s.dec.blen ∧
      4 ≤ s.dec.blen.toNat - s.dec.pos.toNat ∧ (s.dec.nextChunk s.imem).ok = false ∧
      exec .decPull s = .next (raiseDecodeError { s with dec := s.dec.afterReads } (chunkAddrs s.dec.bbase s.dec.pos 4))) ∨
    (s.dec.phase = .streaming ∧ s.dec.rd = s.dec.valid ∧ s.dec.pos ≠ s.dec.blen ∧
      4 ≤ s.dec.blen.toNat - s.dec.pos.toNat ∧ (s.dec.nextChunk s.imem).ok = true ∧
      exec .decPull s = .next (decDeliver { s with dec := s.dec.refill (s.dec.nextChunk s.imem) } (chunkAddrs s.dec.bbase s.dec.pos 4))) ∨
    (s.dec.phase = .streaming ∧ s.dec.rd ≠ s.dec.valid ∧ exec .decPull s = .next (decDeliver s [])) := by
  cases h : s.dec.phase
  · left; exact ⟨rfl, by simp [exec, execDecPull, h]⟩
  · right; right; right
    by_cases h1 : s.dec.rd = s.dec.valid
    · by_cases h2 : s.dec.pos = s.dec.blen
      · left; exact ⟨rfl, h1, h2, by simp [exec, execDecPull, h, DecUnit.drained, h1, h2]⟩
      · by_cases h3 : s.dec.blen.toNat - s.dec.pos.toNat < 4
        · right; left; exact ⟨rfl, h1, h2, h3, by simp [exec, execDecPull, h, DecUnit.drained, h1, h2, DecUnit.truncated, h3]⟩
        · by_cases h4 : (s.dec.nextChunk s.imem).ok = true
          · right; right; right; left
            exact ⟨rfl, h1, h2, by omega, h4, by simp [exec, execDecPull, h, DecUnit.drained, h1, h2, DecUnit.truncated, h3, decRefillPull, h4]⟩
          · right; right; left
            simp at h4
            exact ⟨rfl, h1, h2, by omega, h4, by simp [exec, execDecPull, h, DecUnit.drained, h1, h2, DecUnit.truncated, h3, decRefillPull, h4]⟩
    · right; right; right; right; exact ⟨rfl, h1, by simp [exec, execDecPull, h, DecUnit.drained, h1]⟩
  · right; left; exact ⟨rfl, by simp [exec, execDecPull, h]⟩
  · right; right; left; exact ⟨rfl, by simp [exec, execDecPull, h]⟩

/-- The cursor after an encoder refill (R140, R156): it moves by the chunk, and never past the end. -/
theorem EncUnit.refill_pos_toNat (u : EncUnit) (h : u.pos ≤ u.blen) (hne : u.pos ≠ u.blen) :
    (u.pos + BitVec.ofNat 32 u.chunkSize).toNat = u.pos.toNat + u.chunkSize ∧ 1 ≤ u.chunkSize ∧ u.chunkSize ≤ 3 ∧ u.pos.toNat + u.chunkSize ≤ u.blen.toNat
     ∧ (u.chunkSize = 3 ∨ u.pos.toNat + u.chunkSize = u.blen.toNat) := by
  have h1 : u.pos.toNat ≤ u.blen.toNat := h
  have h2 : u.pos.toNat ≠ u.blen.toNat := fun e => hne (BitVec.eq_of_toNat_eq e)
  have h3 := u.blen.isLt
  have hk : u.chunkSize = min 3 (u.blen.toNat - u.pos.toNat) := rfl
  refine ⟨?_, by omega, by omega, by omega, by omega⟩
  rw [BitVec.toNat_add, BitVec.toNat_ofNat, Nat.mod_eq_of_lt (a := u.chunkSize) (by omega), Nat.mod_eq_of_lt (by omega)]

/-! ## Transactions -/

/-- No transaction looks at the last response. -/
theorem exec_response_irrelevant (i : Instr) (s : State) (r rs) : exec i {s with response := r, imemReads := rs} = exec i s := by
  cases i <;> rfl

/-- No transaction changes IMEM (R75) or the waiting events. -/
theorem exec_keeps_imem {i s t} (h : exec i s = .next t) : t.imem = s.imem ∧ t.inbox = s.inbox := by
  cases i <;> (try (simp only [exec] at h; cases h; exact ⟨rfl, rfl⟩))
  · simp only [exec, execEncWctrl] at h; split at h <;> cases h <;> exact ⟨rfl, rfl⟩
  · rcases encPull_cases s with ⟨hp, e⟩ | ⟨hp, e⟩ | ⟨hp, h1, h2, e⟩ | ⟨hp, h1, h2, e⟩ | ⟨hp, h1, e⟩ <;> rw [e] at h <;> cases h <;> exact ⟨rfl, rfl⟩
  · simp only [exec, execDecWctrl] at h; split at h <;> cases h <;> exact ⟨rfl, rfl⟩
  · rcases decPull_cases s with ⟨hp, e⟩ | ⟨hp, e⟩ | ⟨hp, e⟩ | ⟨hp, h1, h2, e⟩ | ⟨hp, h1, h2, h3, e⟩ | ⟨hp, h1, h2, h3, h4, e⟩ | ⟨hp, h1, h2, h3, h4, e⟩ | ⟨hp, h1, e⟩ <;> rw [e] at h <;> cases h <;> exact ⟨rfl, rfl⟩

/-- A defined transaction is served by its meaning (R245). -/
theorem transact_instr {t : TxnWord} {i} (h : decode t = .instr i) (s) : transact t s = exec i s := by
  simp [transact, step, serveNext, State.offer, serveEvent, serveTransaction, h]

/-- An illegal transaction is answered with a bus error (R245). -/
theorem transact_illegal {t : TxnWord} {i} (h : decode t = .illegal i) (s) : transact t s = .next (raiseBusError s) := by
  simp [transact, step, serveNext, State.offer, serveEvent, serveTransaction, h]

/-- All that a step can do with a waiting event (R245, R270, R274). -/
theorem step_cases {s t : State} {e : HostEvent} {rest : List HostEvent} (hs : s.inbox = e :: rest)
    (h : step s = .next t) :
    (∃ w, (e = .transaction w ∨ ∃ breach wa, e = .unfaithfulRead breach wa ∧ w = TxnWord.make false wa 0#32) ∧
      ((∃ i, decode w = .instr i ∧ exec i { s with inbox := rest } = .next t) ∨
        (∃ c, decode w = .illegal c ∧ t = raiseBusError { s with inbox := rest }))) ∨
    (∃ a v, e = .imemWrite a v ∧ t = hostImemWrite a v { s with inbox := rest }) ∨
    ((e = .reset ∨ ∃ w, e = .resetDuring w) ∧ t = assertReset { s with inbox := rest }) := by
  have served (w : TxnWord) (hw : serveTransaction w { s with inbox := rest } = .next t) :
      (∃ i, decode w = .instr i ∧ exec i { s with inbox := rest } = .next t) ∨
        (∃ c, decode w = .illegal c ∧ t = raiseBusError { s with inbox := rest }) := by
    unfold serveTransaction at hw
    split at hw
    · exact .inl ⟨_, ‹_›, hw⟩
    · cases hw; exact .inr ⟨_, ‹_›, rfl⟩
  simp only [step, serveNext, hs] at h
  cases e with
  | transaction w => exact .inl ⟨w, .inl rfl, served w h⟩
  | unfaithfulRead b wa => exact .inl ⟨_, .inr ⟨b, wa, rfl, rfl⟩, served _ h⟩
  | imemWrite a v => cases h; exact .inr (.inl ⟨a, v, rfl, rfl⟩)
  | reset => cases h; exact .inr (.inr ⟨.inl rfl, rfl⟩)
  | resetDuring w => cases h; exact .inr (.inr ⟨.inr ⟨w, rfl⟩, rfl⟩)
  | narrowAccess _ => cases h
  | imemReadError _ => cases h

/-! ## Runs -/

theorem transactAll_cons {w : TxnWord} {i} (h : decode w = .instr i) {s t r} (he : exec i s = .next t) (hr : t.response = some r) (ws) :
    transactAll (w :: ws) s = (transactAll ws t).map fun p => (r :: p.1, p.2) := by
  simp only [transactAll, transact_instr h, he, hr]

theorem transactAll_append (ws vs : List TxnWord) (s s1 : State) (rs) (h : transactAll ws s = some (rs, s1)) :
    transactAll (ws ++ vs) s = (transactAll vs s1).map fun p => (rs ++ p.1, p.2) := by
  induction ws generalizing s rs with
  | nil => simp only [transactAll] at h; cases h; simp
  | cons w ws ih =>
    simp only [List.cons_append, transactAll] at h ⊢
    split at h
    · split at h
      · rename_i s' _ _ r hr
        cases hh : transactAll ws s' with
        | none => rw [hh] at h; cases h
        | some p =>
          obtain ⟨rs', s''⟩ := p
          rw [hh] at h
          simp only [Option.map_some, Option.some.injEq, Prod.mk.injEq] at h
          obtain ⟨h1, rfl⟩ := h
          rw [ih s' rs' hh, ← h1]
          cases transactAll vs s'' <;> simp
      · cases h
    · cases h
    · cases h

end Sys2Proof.Machine
end

