-- ==== Sys2Proof/Laws/Memory.lean ====
section
/-! SUPPORT. IMEM: a read after a write, a write leaves every other byte alone, and every write keeps the canonical form. -/

namespace Sys2Proof.Machine

@[simp] theorem Memory.read_nil (a : Nat) : Memory.read [] a = Memory.unlisted := rfl

theorem Memory.wfFrom_weaken {lo lo' : Nat} (h : lo' ≤ lo) {m : Memory}
    (hm : Memory.wfFrom lo m = true) : Memory.wfFrom lo' m = true := by
  cases m with
  | nil => rfl
  | cons c rest =>
    obtain ⟨b, w⟩ := c
    simp only [Memory.wfFrom, Bool.and_eq_true, decide_eq_true_eq] at hm ⊢
    exact ⟨⟨⟨by omega, hm.1.1.2⟩, hm.1.2⟩, hm.2⟩

/-- An address below the first listed one is unlisted. -/
theorem Memory.read_below {lo a : Nat} (h : a < lo) {m : Memory}
    (hm : Memory.wfFrom lo m = true) : Memory.read m a = Memory.unlisted := by
  induction m generalizing lo with
  | nil => rfl
  | cons c rest ih =>
    obtain ⟨b, w⟩ := c
    simp only [Memory.wfFrom, Bool.and_eq_true, decide_eq_true_eq] at hm
    have hb : a ≠ b := by omega
    simp only [Memory.read, hb, if_false]
    exact ih (lo := b + 1) (by omega) hm.2

theorem Memory.read_write_same {lo : Nat} {m : Memory} (hm : Memory.wfFrom lo m = true) (a : Nat)
    (v : Byte) : Memory.read (Memory.write m a v) a = v := by
  induction m generalizing lo with
  | nil => by_cases hv : v = Memory.unlisted <;> simp [Memory.write, Memory.read, hv]
  | cons c rest ih =>
    obtain ⟨b, w⟩ := c
    have hm' := hm
    simp only [Memory.wfFrom, Bool.and_eq_true, decide_eq_true_eq] at hm
    by_cases h1 : a < b
    · by_cases hv : v = Memory.unlisted
      · have : a ≠ b := by omega
        simp only [Memory.write, h1, hv, if_true, Memory.read, this, if_false]
        exact Memory.read_below (lo := b + 1) (by omega) hm.2
      · simp [Memory.write, h1, hv, Memory.read]
    · by_cases h2 : a = b
      · by_cases hv : v = Memory.unlisted
        · subst h2
          simp only [Memory.write, Nat.lt_irrefl, hv, if_true, if_false]
          exact Memory.read_below (lo := a + 1) (by omega) hm.2
        · simp [Memory.write, h2, hv, Memory.read]
      · simp only [Memory.write, h1, h2, if_false, Memory.read]
        exact ih hm.2

theorem Memory.read_write_other {m : Memory} {a b : Nat} (v : Byte) (h : b ≠ a) :
    Memory.read (Memory.write m a v) b = Memory.read m b := by
  induction m with
  | nil => by_cases hv : v = Memory.unlisted <;> simp [Memory.write, Memory.read, hv, h]
  | cons c rest ih =>
    obtain ⟨d, w⟩ := c
    by_cases h1 : a < d
    · by_cases hv : v = Memory.unlisted <;> simp [Memory.write, Memory.read, h1, hv, h]
    · by_cases h2 : a = d
      · subst h2
        by_cases hv : v = Memory.unlisted <;> simp [Memory.write, Memory.read, hv, h]
      · simp only [Memory.write, h1, h2, if_false, Memory.read, ih]

theorem Memory.write_wfFrom {lo a : Nat} {m : Memory} (hm : Memory.wfFrom lo m = true)
    (hlo : lo ≤ a) (ha : a < 2 ^ 32) (v : Byte) : Memory.wfFrom lo (Memory.write m a v) = true := by
  induction m generalizing lo with
  | nil =>
    have ha' : a < 4294967296 := ha
    by_cases hv : v = Memory.unlisted <;> simp [Memory.write, Memory.wfFrom, hv, hlo, ha']
  | cons c rest ih =>
    obtain ⟨b, w⟩ := c
    have hm' := hm
    simp only [Memory.wfFrom, Bool.and_eq_true, decide_eq_true_eq] at hm
    obtain ⟨⟨⟨hb, hb32⟩, hw⟩, hrest⟩ := hm
    by_cases h1 : a < b
    · by_cases hv : v = Memory.unlisted
      · simpa only [Memory.write, h1, hv, if_true] using hm'
      · simp only [Memory.write, h1, hv, if_true, if_false, Memory.wfFrom, Bool.and_eq_true,
          decide_eq_true_eq]
        exact ⟨⟨⟨hlo, ha⟩, hv⟩, ⟨⟨⟨by omega, hb32⟩, hw⟩, hrest⟩⟩
    · by_cases h2 : a = b
      · subst h2
        by_cases hv : v = Memory.unlisted
        · simp only [Memory.write, Nat.lt_irrefl, hv, if_true, if_false]
          exact Memory.wfFrom_weaken (by omega) hrest
        · simp only [Memory.write, Nat.lt_irrefl, hv, if_true, if_false, Memory.wfFrom,
            Bool.and_eq_true, decide_eq_true_eq]
          exact ⟨⟨⟨hlo, ha⟩, hv⟩, hrest⟩
      · simp only [Memory.write, h1, h2, if_false, Memory.wfFrom, Bool.and_eq_true,
          decide_eq_true_eq]
        exact ⟨⟨⟨hb, hb32⟩, hw⟩, ih hrest (by omega)⟩

/-- The host's write keeps the canonical form. -/
theorem iMemWrite_wf {m : Memory} (hm : m.wf = true) (a : Word) (v : Byte) :
    (iMemWrite m a v).wf = true :=
  Memory.write_wfFrom hm (Nat.zero_le _) a.isLt v

/-- What has been written is read back. -/
theorem iMemRead_iMemWrite_same {m : Memory} (hm : m.wf = true) (a : Word) (v : Byte) :
    iMemRead (iMemWrite m a v) a = v :=
  Memory.read_write_same hm a.toNat v

/-- A write leaves every other byte alone. -/
theorem iMemRead_iMemWrite_other {m : Memory} {a b : Word} (v : Byte) (h : b ≠ a) :
    iMemRead (iMemWrite m a v) b = iMemRead m b :=
  Memory.read_write_other v fun hn => h (BitVec.eq_of_toNat_eq hn)

/-- Equal memories are equal data: canonical memories that read alike are the same list. -/
theorem Memory.ext_read {lo : Nat} {m n : Memory} (hm : Memory.wfFrom lo m = true)
    (hn : Memory.wfFrom lo n = true) (h : ∀ a, Memory.read m a = Memory.read n a) : m = n := by
  induction m generalizing lo n with
  | nil =>
    cases n with
    | nil => rfl
    | cons c rest =>
      obtain ⟨b, w⟩ := c
      simp only [Memory.wfFrom, Bool.and_eq_true, decide_eq_true_eq] at hn
      exact absurd (by simpa [Memory.read] using (h b).symm) hn.1.2
  | cons c rest ih =>
    obtain ⟨b, w⟩ := c
    have hm' := hm
    simp only [Memory.wfFrom, Bool.and_eq_true, decide_eq_true_eq] at hm
    cases n with
    | nil => exact absurd (by simpa [Memory.read] using h b) hm.1.2
    | cons d rest' =>
      obtain ⟨b', w'⟩ := d
      have hn' := hn
      simp only [Memory.wfFrom, Bool.and_eq_true, decide_eq_true_eq] at hn
      have hb : b = b' := by
        rcases Nat.lt_trichotomy b b' with hlt | heq | hgt
        · have h1 := h b
          have hne : b ≠ b' := by omega
          simp only [Memory.read, if_true, hne, if_false] at h1
          rw [Memory.read_below (lo := b' + 1) (by omega) hn.2] at h1
          exact absurd h1 hm.1.2
        · exact heq
        · have h1 := h b'
          have hne : b' ≠ b := by omega
          simp only [Memory.read, if_true, hne, if_false] at h1
          rw [Memory.read_below (lo := b + 1) (by omega) hm.2] at h1
          exact absurd h1.symm hn.1.2
      subst hb
      have hw : w = w' := by simpa [Memory.read] using h b
      subst hw
      have hrest : rest = rest' := by
        refine ih hm.2 hn.2 fun a => ?_
        by_cases ha : a = b
        · subst ha
          rw [Memory.read_below (lo := a + 1) (by omega) hm.2,
            Memory.read_below (lo := a + 1) (by omega) hn.2]
        · simpa [Memory.read, ha] using h a
      rw [hrest]

end Sys2Proof.Machine
end

