-- ==== Sys2Proof/Laws/PerInstr.lean ====
section
/-! SUPPORT. Facts proved instruction by instruction. -/

namespace Sys2Proof.Laws.Encoding

/-- The assembled word says what the instruction says: WE is set exactly for an instruction with an
operand, WDATA is that operand or 0 (R102, R110), and WA lies in the words of the unit addressed (R102, R254). -/
def Statement (i : Instr) : Prop :=
  (encode i).we = i.operand.isSome ∧ (encode i).wdata = i.operand.getD 0#32 ∧
    (i.toEncoder = true ↔ (encode i).wa < 0x08#6)

/-- The three facts, from the three fields of an assembled word. -/
theorem statement_of_fields {i : Instr} {we : Bool} {wa : WordAddr} {wdata : Word}
    (h : encode i = TxnWord.make we wa wdata) (hwe : we = i.operand.isSome)
    (hwdata : wdata = i.operand.getD 0#32) (hwa : i.toEncoder = decide (wa < 0x08#6)) : Statement i := by
  refine ⟨?_, ?_, ?_⟩
  · rw [h, TxnWord.make_we, hwe]
  · rw [h, TxnWord.make_wdata, hwdata]
  · rw [h, TxnWord.make_wa, hwa, decide_eq_true_eq]

theorem encRbase : Statement .encRbase := statement_of_fields rfl rfl rfl rfl
theorem encWbase (base : Word) : Statement (.encWbase base) := statement_of_fields rfl rfl rfl rfl
theorem encRlen : Statement .encRlen := statement_of_fields rfl rfl rfl rfl
theorem encWlen (len : Word) : Statement (.encWlen len) := statement_of_fields rfl rfl rfl rfl
theorem encRctrl : Statement .encRctrl := statement_of_fields rfl rfl rfl rfl
theorem encWctrl (wdata : Word) : Statement (.encWctrl wdata) := statement_of_fields rfl rfl rfl rfl
theorem encPull : Statement .encPull := statement_of_fields rfl rfl rfl rfl
theorem encRstate : Statement .encRstate := statement_of_fields rfl rfl rfl rfl
theorem encRpos : Statement .encRpos := statement_of_fields rfl rfl rfl rfl
theorem decRbase : Statement .decRbase := statement_of_fields rfl rfl rfl rfl
theorem decWbase (base : Word) : Statement (.decWbase base) := statement_of_fields rfl rfl rfl rfl
theorem decRlen : Statement .decRlen := statement_of_fields rfl rfl rfl rfl
theorem decWlen (len : Word) : Statement (.decWlen len) := statement_of_fields rfl rfl rfl rfl
theorem decRctrl : Statement .decRctrl := statement_of_fields rfl rfl rfl rfl
theorem decWctrl (wdata : Word) : Statement (.decWctrl wdata) := statement_of_fields rfl rfl rfl rfl
theorem decPull : Statement .decPull := statement_of_fields rfl rfl rfl rfl
theorem decRstatus : Statement .decRstatus := statement_of_fields rfl rfl rfl rfl
theorem decRpos : Statement .decRpos := statement_of_fields rfl rfl rfl rfl

end Sys2Proof.Laws.Encoding
end

