-- ==== Sys2Proof/Tests/Slice0.lean ====
section
/-! SUPPORT. Tests, with expected values from spec/30_encoding.md and spec/95_test_vectors.md, and a witness for the hypotheses of every statement that has some. -/

namespace Sys2Proof.Tests

open Sys2Proof.Machine

/-! ## Helpers -/

/-- IMEM with the given bytes from an address on. -/
def memAt (a : Nat) : List Byte → Memory
  | [] => []
  | b :: bs => (memAt (a + 1) bs).write a b

/-- A freshly bound encoder. -/
def encBound (bbase blen : Word) : EncUnit :=
  { EncUnit.reset with phase := .streaming, bbase := bbase, blen := blen }

/-- A freshly bound decoder. -/
def decBound (bbase blen : Word) : DecUnit :=
  { DecUnit.reset with phase := .streaming, bbase := bbase, blen := blen }

/-- The encoder bound to `bytes` at 0x1000. -/
def encOn (bytes : List Byte) : State :=
  { State.reset with enc := encBound 0x1000 (BitVec.ofNat 32 bytes.length), imem := memAt 0x1000 bytes }

/-- The decoder bound to `bytes` at 0x2000. -/
def decOn (bytes : List Byte) : State :=
  { State.reset with dec := decBound 0x2000 (BitVec.ofNat 32 bytes.length), imem := memAt 0x2000 bytes }

/-- The state an outcome goes on in. -/
def nextOf : Host.Outcome State Fault Refusal → Option State
  | .next s => some s
  | .fault _ => none
  | .refused _ => none

/-- The response of one transaction word, by one step. -/
def answer (t : TxnWord) (s : State) : Option Response := (nextOf (transact t s)).bind (·.response)

/-- The state after one transaction word. -/
def after (t : TxnWord) (s : State) : Option State := nextOf (transact t s)

/-- The responses of a run. -/
def answers (ts : List TxnWord) (s : State) : Option (List Response) := (transactAll ts s).map (·.1)

theorem next_of_nextOf {o : Host.Outcome State Fault Refusal} {t : State} (h : nextOf o = some t) :
    o = .next t := by
  cases o with
  | next s => exact congrArg Host.Outcome.next (Option.some.inj h)
  | fault _ => cases h
  | refused _ => cases h

/-! ## WellFormed: an ill-formed term for each check -/

theorem test_wf_refuses_reserved_encoder_command : (Instr.encWctrl 0x2#32).wf = false := by decide

theorem test_wf_refuses_reserved_decoder_command : (Instr.decWctrl 0x80000001#32).wf = false := by decide

theorem test_wf_accepts_binds :
    (Instr.encWctrl 0x1#32).wf = true ∧ (Instr.decWctrl 0x0#32).wf = true := by decide

/-! ## Decoding: every row of R103, with the words of spec/95_test_vectors.md sections 2.6 and 2.7 -/

theorem test_decode_encRbase : decode 0x0000000000#39 = .instr .encRbase := by decide
theorem test_decode_encWbase : decode 0x40DEADBEEF#39 = .instr (.encWbase 0xDEADBEEF#32) := by decide
theorem test_decode_encRlen : decode 0x0100000000#39 = .instr .encRlen := by decide
theorem test_decode_encWlen : decode 0x41FFFFFFFF#39 = .instr (.encWlen 0xFFFFFFFF#32) := by decide
theorem test_decode_encRctrl : decode 0x0200000000#39 = .instr .encRctrl := by decide
theorem test_decode_encWctrl : decode 0x4200000001#39 = .instr (.encWctrl 0x1#32) := by decide
theorem test_decode_encPull : decode 0x0300000000#39 = .instr .encPull := by decide
theorem test_decode_encRstate : decode 0x0400000000#39 = .instr .encRstate := by decide
theorem test_decode_encRpos : decode 0x0500000000#39 = .instr .encRpos := by decide
theorem test_decode_decRbase : decode 0x0800000000#39 = .instr .decRbase := by decide
theorem test_decode_decWbase : decode 0x4812345678#39 = .instr (.decWbase 0x12345678#32) := by decide
theorem test_decode_decRlen : decode 0x0900000000#39 = .instr .decRlen := by decide
theorem test_decode_decWlen : decode 0x4900000007#39 = .instr (.decWlen 0x7#32) := by decide
theorem test_decode_decRctrl : decode 0x0A00000000#39 = .instr .decRctrl := by decide
theorem test_decode_decWctrl : decode 0x4A00000001#39 = .instr (.decWctrl 0x1#32) := by decide
theorem test_decode_decPull : decode 0x0B00000000#39 = .instr .decPull := by decide
theorem test_decode_decRstatus : decode 0x0C00000000#39 = .instr .decRstatus := by decide
theorem test_decode_decRpos : decode 0x0D00000000#39 = .instr .decRpos := by decide

/-- A read ignores WDATA (R100, R105). -/
theorem test_decode_read_ignores_wdata : decode 0x0BFFFFFFFF#39 = .instr .decPull := by decide

/-- Section 2.7. -/
theorem test_decode_illegal :
    decode 0x4300000000#39 = .illegal (.readOnlyWrite 0x03#6) ∧
    decode 0x4D00000000#39 = .illegal (.readOnlyWrite 0x0D#6) ∧
    decode 0x0600000000#39 = .illegal (.reservedWord false 0x06#6) ∧
    decode 0x4700000001#39 = .illegal (.reservedWord true 0x07#6) ∧
    decode 0x0E00000000#39 = .illegal (.reservedWord false 0x0E#6) ∧
    decode 0x3F00000000#39 = .illegal (.reservedWord false 0x3F#6) := by decide

/-- R110's own example. -/
theorem test_encode_listing :
    encode (.encWlen 3#32) = 0x4100000003#39 ∧
    listing (encode (.encWlen 3#32)) = "0x4100000003".toList ∧
    RawForm.assemble (.wr 0x04#6 0x1F#32) = 0x440000001F#39 := by decide

theorem test_decodeTableWord :
    decodeTableWord 40 0x4200000001 = some (.encWctrl 1#32) ∧ decodeTableWord 40 0x0600000000 = none ∧
    decodeTableWord 40 0x8000000000 = none := by decide

theorem test_withFetchWord_runs_the_word :
    (nextOf (step (State.reset.withFetchWord 40 0x40DEADBEEF))).map (·.enc.base) = some 0xDEADBEEF#32 := by
  decide

theorem test_reset_memory_is_canonical : State.reset.imem.wf = true := by decide

/-! ## One step of each instruction -/

/-- Section 2.8: bound to "fo", one unit pulled. -/
def foPulled : State :=
  { encOn [0x66#8, 0x6F#8] with
    enc := { encBound 0x1000 2 with
      pos := 2, stage := ⟨0x5A, 0x6D, 0x38, 0x3D⟩, valid := 4, rd := 1 } }

/-- Section 2.9: bound to "Zm8=Zg", one unit pulled. -/
def zmPulled : State :=
  { decOn [0x5A#8, 0x6D#8, 0x38#8, 0x3D#8, 0x5A#8, 0x67#8] with
    dec := { decBound 0x2000 6 with
      pos := 4, stage := ⟨0x66, 0x6F, 0x00⟩, valid := 2, rd := 1 } }

/-- Section 2.9, after the failing pull. -/
def zmFailed : State :=
  { zmPulled with dec := { zmPulled.dec with rd := 2, phase := .failed, err := true } }

theorem test_encWbase_then_read :
    ((after 0x40DEADBEEF#39 State.reset).bind (answer 0x0000000000#39)) = some ⟨0xDEADBEEF#32, false⟩ := by
  decide

theorem test_encWlen_then_read :
    ((after 0x41FFFFFFFF#39 State.reset).bind (answer 0x0100000000#39)) = some ⟨0xFFFFFFFF#32, false⟩ := by
  decide

theorem test_encRctrl : answer 0x0200000000#39 foPulled = some ⟨0#32, false⟩ := by decide

/-- R154's corner case: staged units are discarded, and the shadow registers are what is bound. -/
theorem test_encWctrl_binds_the_shadow :
    (after 0x4200000001#39 { foPulled with enc := { foPulled.enc with base := 0x1001, len := 1 } }).map
      (fun s => (s.enc.bbase, s.enc.blen, s.enc.pos, s.enc.pend, s.enc.phase)) =
    some (0x1001#32, 1#32, 0#32, 0#3, .streaming) := by decide

theorem test_encWctrl_without_bind : (after 0x4200000000#39 foPulled).map (·.enc) = some foPulled.enc := by
  decide

/-- Section 2.10: the input wraps around the address space. -/
theorem test_encPull_wraps :
    (after 0x0300000000#39 { State.reset with
        enc := encBound 0xFFFFFFFE 3
        imem := [(0, 0x6F#8), (0xFFFFFFFE, 0x66#8), (0xFFFFFFFF, 0x6F#8)] }).map
      (fun s => (s.response, s.imemReads, s.enc.stage)) =
    some (some ⟨0x5A#32, false⟩, [0xFFFFFFFE#32, 0xFFFFFFFF#32, 0x00000000#32],
      ⟨0x5A#8, 0x6D#8, 0x39#8, 0x76#8⟩) := by decide

/-- Section 2.8, step 3. -/
theorem test_encPull_short_chunk :
    (after 0x0300000000#39 (encOn [0x66#8, 0x6F#8])).map (fun s => (s.response, s.enc)) =
    some (some ⟨0x5A#32, false⟩, foPulled.enc) := by decide

/-- Section 2.8, step 3. -/
theorem test_encRstate : answer 0x0400000000#39 foPulled = some ⟨0x0D#32, false⟩ := by decide

theorem test_encRpos : answer 0x0500000000#39 foPulled = some ⟨2#32, false⟩ := by decide

theorem test_decWbase_then_read :
    ((after 0x4812345678#39 State.reset).bind (answer 0x0800000000#39)) = some ⟨0x12345678#32, false⟩ := by
  decide

theorem test_decWlen_then_read :
    ((after 0x4900000007#39 State.reset).bind (answer 0x0900000000#39)) = some ⟨0x7#32, false⟩ := by
  decide

theorem test_decRctrl : answer 0x0A00000000#39 zmPulled = some ⟨0#32, false⟩ := by decide

/-- Section 2.9, step 9: a bind clears ERR and ends FAILED. -/
theorem test_decWctrl_clears_the_error :
    (after 0x4A00000001#39 zmFailed).map (fun s => (s.dec.err, s.dec.phase, s.dec.pos, s.dec.pend)) =
    some (false, .streaming, 0#32, 0#2) := by decide

theorem test_decWctrl_without_bind : (after 0x4A00000000#39 zmFailed).map (·.dec) = some zmFailed.dec := by
  decide

/-- Section 2.9, step 2. -/
theorem test_decPull_padded_chunk :
    (after 0x0B00000000#39 (decOn [0x5A#8, 0x6D#8, 0x38#8, 0x3D#8, 0x5A#8, 0x67#8])).map
      (fun s => (s.response, s.dec)) = some (some ⟨0x66#32, false⟩, zmPulled.dec) := by decide

/-- Section 1.2: "Z===" fails after four reads. -/
theorem test_decPull_misplaced_padding :
    (after 0x0B00000000#39 (decOn [0x5A#8, 0x3D#8, 0x3D#8, 0x3D#8])).map
      (fun s => (s.response, s.dec.phase, s.dec.err, s.dec.pos, s.imemReads.length)) =
    some (some ⟨0x200#32, false⟩, .failed, true, 0#32, 4) := by decide

/-- Section 2.9, steps 2 and 4. -/
theorem test_decRstatus :
    answer 0x0C00000000#39 zmPulled = some ⟨0x0A#32, false⟩ ∧
    answer 0x0C00000000#39 zmFailed = some ⟨0x07#32, false⟩ := by decide

theorem test_decRpos : answer 0x0D00000000#39 zmFailed = some ⟨4#32, false⟩ := by decide

/-- Section 2.7. -/
theorem test_bus_error :
    (after 0x440000001F#39 foPulled).map (fun s => (s.response, s.enc, s.dec, s.imem)) =
    some (some ⟨0#32, true⟩, foPulled.enc, foPulled.dec, foPulled.imem) := by decide

/-! ## The chunk functions and whole streams -/

/-- Section 2.3, rows 5, 12 and 14. -/
theorem test_encodeChunk :
    encodeChunk 2 0x66 0x6F 0xCD = ⟨0x5A, 0x6D, 0x38, 0x3D⟩ ∧
    encodeChunk 3 0xFB 0xFF 0xBF = ⟨0x2B, 0x2F, 0x2B, 0x2F⟩ ∧
    encodeChunk 3 0x14 0xFB 0x9C = ⟨0x46, 0x50, 0x75, 0x63⟩ := by decide

/-- Section 2.4: the mixed-alphabet chunk 2B 2F 2D 5F, then "Zh==", "AA=A" and "Zg=$". -/
theorem test_decodeChunk :
    decodeChunk 0x2B 0x2F 0x2D 0x5F = ⟨true, 3, ⟨0xFB, 0xFF, 0xBF⟩⟩ ∧
    decodeChunk 0x5A 0x68 0x3D 0x3D = ⟨true, 1, ⟨0x66, 0x00, 0x00⟩⟩ ∧
    decodeChunk 0x41 0x41 0x3D 0x41 = .bad ∧ decodeChunk 0x5A 0x67 0x3D 0x24 = .bad := by decide

/-- Section 1.5: F8 .. FF. -/
theorem test_encodeStream :
    encodeStream [0xF8, 0xF9, 0xFA, 0xFB, 0xFC, 0xFD, 0xFE, 0xFF] =
      [0x2B, 0x50, 0x6E, 0x36, 0x2B, 0x2F, 0x7A, 0x39, 0x2F, 0x76, 0x38, 0x3D] := by decide

/-- Section 1.2, "Zg==$", and section 2.5, "Zg==Zg==". -/
theorem test_decodeStream :
    decodeStream [0x5A, 0x67, 0x3D, 0x3D, 0x24] = ([0x66], false) ∧
    decodeStream [0x5A, 0x67, 0x3D, 0x3D, 0x5A, 0x67, 0x3D, 0x3D] = ([0x66, 0x66], true) := by decide

/-! ## Witnesses: states and operands that meet the hypotheses of the statements, clause by clause -/

theorem inv_encReset : EncUnit.reset.Inv :=
  ⟨by decide, by decide, by decide, by decide, by decide, by decide⟩

theorem inv_decReset : DecUnit.reset.Inv :=
  ⟨by decide, by decide, by decide, by decide, by decide, by decide, by decide, by decide, by decide⟩

theorem inv_reset_dec {e : EncUnit} {m : Memory} {q : List HostEvent} {r : Option Response} {a : List Word}
    (he : e.Inv) (hm : m.wf = true) : State.Inv ⟨e, DecUnit.reset, m, q, r, a⟩ := ⟨he, inv_decReset, hm⟩

theorem inv_reset_enc {d : DecUnit} {m : Memory} {q : List HostEvent} {r : Option Response} {a : List Word}
    (hd : d.Inv) (hm : m.wf = true) : State.Inv ⟨EncUnit.reset, d, m, q, r, a⟩ := ⟨inv_encReset, hd, hm⟩

theorem inv_foPulled : foPulled.Inv :=
  inv_reset_dec ⟨by decide, by decide, by decide, by decide, by decide, by decide⟩ (by decide)

theorem inv_zmPulled : zmPulled.Inv :=
  inv_reset_enc ⟨by decide, by decide, by decide, by decide, by decide, by decide, by decide, by decide,
    by decide⟩ (by decide)

theorem inv_zmFailed : zmFailed.Inv :=
  inv_reset_enc ⟨by decide, by decide, by decide, by decide, by decide, by decide, by decide, by decide,
    by decide⟩ (by decide)

/-- An encoder bound to "foob", at the given cursor and drained. -/
def foobAt (pos : Word) : State :=
  { encOn [0x66#8, 0x6F#8, 0x6F#8, 0x62#8] with
    enc := { encBound 0x1000 4 with pos := pos, valid := 4, rd := 4 } }

theorem inv_foobAt : (foobAt 3).Inv ∧ (foobAt 4).Inv :=
  ⟨inv_reset_dec ⟨by decide, by decide, by decide, by decide, by decide, by decide⟩ (by decide),
    inv_reset_dec ⟨by decide, by decide, by decide, by decide, by decide, by decide⟩ (by decide)⟩

/-- A decoder bound to the first `len` bytes of "Zm9vZm$=", at the given cursor and drained. -/
def zm9vAt (len pos : Word) : State :=
  { decOn [0x5A#8, 0x6D#8, 0x39#8, 0x76#8, 0x5A#8, 0x6D#8, 0x24#8, 0x3D#8] with
    dec := { decBound 0x2000 len with pos := pos } }

theorem test_witness_EncodeOfDecodeIsTheWord :
    decode 0x0B12345678#39 = .instr .decPull ∧ decode 0x4FFFFFFFFF#39 ≠ .instr .decPull ∧
    decode 0x42FFFFFFFE#39 = .instr (.encWctrl 0xFFFFFFFE#32) := by decide

theorem test_witness_DecoderFollowsTheOpcodeMap :
    ⟨"ENC_RBASE", 0x0000000000, 0x7F00000000⟩ ∈ opcodeTable ∧
    OpcodeRow.accepts ⟨"ENC_RBASE", 0x0000000000, 0x7F00000000⟩ 0x00FFFFFFFF#39 = true ∧
    ⟨"DEC_WCTRL", 0x4A00000000, 0x7F00000000⟩ ∈ opcodeTable ∧
    OpcodeRow.accepts ⟨"DEC_WCTRL", 0x4A00000000, 0x7F00000000⟩ 0x4A00000001#39 = true := by decide

theorem test_witness_EveryOtherPairIsAnIllegalBusError :
    TxnWord.we 0x4300000000#39 = true ∧ TxnWord.wa 0x4300000000#39 = 0x03#6 ∧
    decode 0x4300000000#39 = .illegal (.readOnlyWrite 0x03#6) ∧
    TxnWord.wa 0x0E00000000#39 = 0x0E#6 ∧
    decode 0x7F00000000#39 = .illegal (.reservedWord true 0x3F#6) := by decide

theorem test_witness_BusErrorExactlyOutsideTheOpcodeMap :
    (∀ row ∈ opcodeTable, row.accepts 0x0700000000#39 = false) ∧
    answer 0x0700000000#39 foPulled = some ⟨0#32, true⟩ := by decide

theorem test_witness_StepRunsTheDecodedTransaction :
    ({ foPulled with inbox := [.transaction 0x0300000000#39, .reset] } : State).inbox =
      .transaction 0x0300000000#39 :: [.reset] ∧ decode 0x0300000000#39 = .instr .encPull := by decide

theorem test_witness_IdleStepChangesNothing : foPulled.inbox = [] := by decide

theorem test_witness_EncBaseIsWrittenAndRead :
    0x40DEADBEEF#39 &&& 0x7F00000000#39 = 0x4000000000#39 ∧
    0x00DEADBEEF#39 &&& 0x7F00000000#39 = 0x0000000000#39 := by decide

theorem test_witness_EncLenIsWrittenAndRead :
    0x41FFFFFFFF#39 &&& 0x7F00000000#39 = 0x4100000000#39 ∧
    0x0100000001#39 &&& 0x7F00000000#39 = 0x0100000000#39 := by decide

theorem test_witness_EncCtrlBindsAndReadsZero :
    0x42FFFFFFFF#39 &&& 0x7F00000000#39 = 0x4200000000#39 ∧
    0x0200000001#39 &&& 0x7F00000000#39 = 0x0200000000#39 ∧
    (0xFFFFFFFF#32).getLsbD 0 = true ∧ (0xFFFFFFFE#32).getLsbD 0 = false := by decide

theorem test_witness_DecBaseIsWrittenAndRead :
    0x4812345678#39 &&& 0x7F00000000#39 = 0x4800000000#39 ∧
    0x08FFFFFFFF#39 &&& 0x7F00000000#39 = 0x0800000000#39 := by decide

theorem test_witness_DecLenIsWrittenAndRead :
    0x4900000007#39 &&& 0x7F00000000#39 = 0x4900000000#39 ∧
    0x0900000000#39 &&& 0x7F00000000#39 = 0x0900000000#39 := by decide

theorem test_witness_DecCtrlBindsAndReadsZero :
    0x4A00000001#39 &&& 0x7F00000000#39 = 0x4A00000000#39 ∧
    0x0A00000001#39 &&& 0x7F00000000#39 = 0x0A00000000#39 ∧
    (0x00000001#32).getLsbD 0 = true ∧ (0x00000000#32).getLsbD 0 = false := by decide

/-- The clauses in order; the refill at its boundary chunk sizes 3 and 1. -/
theorem test_witness_EncPullFollowsItsRule :
    0x03FFFFFFFF#39 &&& 0x7F00000000#39 = 0x0300000000#39 ∧
    State.reset.enc.phase = .unbound ∧
    ({ foPulled.enc with phase := .exhausted } : EncUnit).phase = .exhausted ∧
    ((foobAt 4).enc.phase = .streaming ∧ (foobAt 4).enc.rd = (foobAt 4).enc.valid ∧
      (foobAt 4).enc.pos = (foobAt 4).enc.blen) ∧
    ((foobAt 0).enc.phase = .streaming ∧ (foobAt 0).enc.rd = (foobAt 0).enc.valid ∧
      (foobAt 0).enc.pos < (foobAt 0).enc.blen ∧ (foobAt 0).enc.broken = false ∧
      3 = min 3 ((foobAt 0).enc.blen.toNat - (foobAt 0).enc.pos.toNat)) ∧
    ((foobAt 3).enc.pos < (foobAt 3).enc.blen ∧
      1 = min 3 ((foobAt 3).enc.blen.toNat - (foobAt 3).enc.pos.toNat)) ∧
    (foPulled.enc.phase = .streaming ∧ foPulled.enc.rd ≠ foPulled.enc.valid ∧
      [foPulled.enc.stage.u0, foPulled.enc.stage.u1, foPulled.enc.stage.u2,
        foPulled.enc.stage.u3][foPulled.enc.rd.toNat]? = some 0x6D#8) := by decide

theorem test_witness_EncPullAfterABrokenBorrowRunsOnFreeBytes :
    ∃ s : State, s.enc.phase = .streaming ∧ s.enc.rd = s.enc.valid ∧ s.enc.pos < s.enc.blen ∧
      s.enc.broken = true ∧ 1 = min 3 (s.enc.blen.toNat - s.enc.pos.toNat) :=
  ⟨{ foobAt 3 with enc := { (foobAt 3).enc with broken := true } }, by decide⟩

theorem test_witness_EncStateAndPosAreRead :
    0x04FFFFFFFF#39 &&& 0x7F00000000#39 = 0x0400000000#39 ∧
    0x0500000001#39 &&& 0x7F00000000#39 = 0x0500000000#39 ∧ foPulled.Inv ∧ State.reset.Inv ∧
    State.reset.enc.phase ≠ .streaming :=
  ⟨by decide, by decide, inv_foPulled,
    inv_reset_dec ⟨by decide, by decide, by decide, by decide, by decide, by decide⟩ (by decide), by decide⟩

theorem test_witness_EncoderPhaseMachine :
    (∃ t, exec (.encWctrl 1#32) State.reset = .next t ∧ t.enc.phase ≠ State.reset.enc.phase) ∧
    (∃ t, exec .encPull (foobAt 4) = .next t ∧ t.enc.phase ≠ (foobAt 4).enc.phase) ∧
    (1#32).getLsbD 0 = true ∧
    ({ foPulled with inbox := [.reset] } : State).inbox = .reset :: [] ∧
    ∃ s t : State, s.inbox = .unfaithfulRead .prefetched 0x03#6 :: [] ∧ step s = .next t ∧
      t.enc.phase ≠ s.enc.phase :=
  ⟨⟨_, rfl, by decide⟩, ⟨_, next_of_nextOf rfl, by decide⟩, by decide, rfl,
    ⟨{ foobAt 4 with inbox := [.unfaithfulRead .prefetched 0x03#6] }, _, rfl, next_of_nextOf rfl, by decide⟩⟩

/-- The bound at its least value, 0, and above it. -/
theorem test_witness_EncoderDrainEndsAfterExactlyItsUnits :
    ((foobAt 4).Inv ∧ (foobAt 4).enc.phase = .streaming ∧
      0 = ((foobAt 4).enc.valid - (foobAt 4).enc.rd).toNat +
        4 * ceilDiv ((foobAt 4).enc.blen.toNat - (foobAt 4).enc.pos.toNat) 3) ∧
    ((foobAt 3).Inv ∧ (foobAt 3).enc.phase = .streaming ∧
      4 = ((foobAt 3).enc.valid - (foobAt 3).enc.rd).toNat +
        4 * ceilDiv ((foobAt 3).enc.blen.toNat - (foobAt 3).enc.pos.toNat) 3 ∧ 4 ≤ 4) :=
  ⟨⟨inv_foobAt.2, by decide, by decide⟩, ⟨inv_foobAt.1, by decide, by decide, by decide⟩⟩

theorem test_witness_EncoderOutputStaysInTheAlphabet :
    0x3D#8 ∈ encodeStream [0x66] ∧ 0x2F#8 ∈ encodeStream [0xFF, 0xFF] := by decide

/-- The clauses in order; the last chunk at the boundary lengths 3 and 4. -/
theorem test_witness_DecPullFollowsItsRule :
    0x0BFFFFFFFF#39 &&& 0x7F00000000#39 = 0x0B00000000#39 ∧
    State.reset.dec.phase = .unbound ∧
    ({ zmPulled.dec with phase := .exhausted } : DecUnit).phase = .exhausted ∧
    zmFailed.dec.phase = .failed ∧
    ((zm9vAt 8 8).dec.phase = .streaming ∧ (zm9vAt 8 8).dec.rd = (zm9vAt 8 8).dec.valid ∧
      (zm9vAt 8 8).dec.pos = (zm9vAt 8 8).dec.blen) ∧
    ((zm9vAt 7 4).dec.phase = .streaming ∧ (zm9vAt 7 4).dec.rd = (zm9vAt 7 4).dec.valid ∧
      (zm9vAt 7 4).dec.pos < (zm9vAt 7 4).dec.blen ∧
      (zm9vAt 7 4).dec.blen.toNat - (zm9vAt 7 4).dec.pos.toNat < 4) ∧
    (4 ≤ (zm9vAt 8 4).dec.blen.toNat - (zm9vAt 8 4).dec.pos.toNat ∧ (zm9vAt 8 4).dec.broken = false ∧
      (decodeChunk (iMemRead (zm9vAt 8 4).imem 0x2004) (iMemRead (zm9vAt 8 4).imem 0x2005)
        (iMemRead (zm9vAt 8 4).imem 0x2006) (iMemRead (zm9vAt 8 4).imem 0x2007)).ok = false) ∧
    (4 ≤ (zm9vAt 4 0).dec.blen.toNat - (zm9vAt 4 0).dec.pos.toNat ∧
      (decodeChunk (iMemRead (zm9vAt 4 0).imem 0x2000) (iMemRead (zm9vAt 4 0).imem 0x2001)
        (iMemRead (zm9vAt 4 0).imem 0x2002) (iMemRead (zm9vAt 4 0).imem 0x2003)).ok = true) ∧
    (zmPulled.dec.phase = .streaming ∧ zmPulled.dec.rd ≠ zmPulled.dec.valid ∧
      [zmPulled.dec.stage.u0, zmPulled.dec.stage.u1,
        zmPulled.dec.stage.u2][zmPulled.dec.rd.toNat]? = some 0x6F#8) := by decide

theorem test_witness_DecPullAfterABrokenBorrowRunsOnFreeBytes :
    ∃ s : State, s.dec.phase = .streaming ∧ s.dec.rd = s.dec.valid ∧
      4 ≤ s.dec.blen.toNat - s.dec.pos.toNat ∧ s.dec.broken = true :=
  ⟨{ zm9vAt 8 4 with dec := { (zm9vAt 8 4).dec with broken := true } }, by decide⟩

theorem test_witness_DecStatusAndPosAreRead :
    0x0CFFFFFFFF#39 &&& 0x7F00000000#39 = 0x0C00000000#39 ∧
    0x0D00000001#39 &&& 0x7F00000000#39 = 0x0D00000000#39 ∧ zmPulled.Inv ∧ zmFailed.Inv :=
  ⟨by decide, by decide, inv_zmPulled, inv_zmFailed⟩

theorem test_witness_StatusReadsErrorExactlyInFailed : zmPulled.Inv ∧ zmFailed.Inv :=
  ⟨inv_zmPulled, inv_zmFailed⟩

theorem test_witness_DecoderPhaseMachine :
    (∃ t, exec (.decWctrl 1#32) zmFailed = .next t ∧ t.dec.phase ≠ zmFailed.dec.phase) ∧
    (∃ t, exec .decPull (zm9vAt 8 8) = .next t ∧ t.dec.phase ≠ (zm9vAt 8 8).dec.phase) ∧
    (∃ t, exec .decPull (zm9vAt 7 4) = .next t ∧ t.dec.phase ≠ (zm9vAt 7 4).dec.phase) ∧
    (∃ t, exec .decPull (zm9vAt 8 4) = .next t ∧ t.dec.phase ≠ (zm9vAt 8 4).dec.phase) ∧
    (1#32).getLsbD 0 = true ∧
    ∃ s t : State, s.inbox = .reset :: [] ∧ step s = .next t ∧ t.dec.phase ≠ s.dec.phase :=
  ⟨⟨_, rfl, by decide⟩, ⟨_, next_of_nextOf rfl, by decide⟩, ⟨_, next_of_nextOf rfl, by decide⟩,
    ⟨_, next_of_nextOf rfl, by decide⟩, by decide,
    ⟨{ zmFailed with inbox := [.reset] }, _, rfl, next_of_nextOf rfl, by decide⟩⟩

theorem test_witness_DecoderDrainEndsWithinItsBound :
    zmPulled.Inv ∧ zmPulled.dec.phase = .streaming ∧
      4 = (zmPulled.dec.valid - zmPulled.dec.rd).toNat +
        3 * ceilDiv (zmPulled.dec.blen.toNat - zmPulled.dec.pos.toNat) 4 :=
  ⟨inv_zmPulled, by decide, by decide⟩

theorem test_witness_ClassifyInvertsTheAlphabet :
    classify 0x2D#8 = .value 62#6 ∧ classify 0x41#8 = .value 0#6 ∧ classify 0x2F#8 = .value 63#6 := by
  decide

theorem test_witness_ChunkIsValidExactlyWithLegalPadding :
    (decodeChunk 0x5A 0x6D 0x39 0x76).ok = true ∧ (decodeChunk 0x5A 0x6D 0x38 0x3D).ok = true ∧
    (decodeChunk 0x5A 0x67 0x3D 0x3D).ok = true := by decide

theorem test_witness_DecodeChunkRebuildsTheBytes :
    classify 0x5A#8 = .value 25#6 ∧ classify 0x6D#8 = .value 38#6 ∧ classify 0x39#8 = .value 61#6 ∧
    classify 0x5F#8 = .value 63#6 := by decide

/-- Section 2.4: "Zg==" and "Zh==", "Zm8=" and "Zm9=". -/
theorem test_witness_UnusedBitsOfAPaddedChunkAreIgnored :
    classify 0x5A#8 = .value 25#6 ∧ classify 0x67#8 = .value 32#6 ∧ classify 0x68#8 = .value 33#6 ∧
    classify 0x38#8 = .value 60#6 ∧ classify 0x39#8 = .value 61#6 ∧
    (32#6).extractLsb' 4 2 = (33#6).extractLsb' 4 2 ∧
    (60#6).extractLsb' 2 4 = (61#6).extractLsb' 2 4 := by decide

theorem test_witness_UrlSafeCharactersDecodeAsTheStandardOnes :
    ∃ std : Byte → Byte,
      ∀ c, std c = if c = 0x2D#8 then 0x2B#8 else if c = 0x5F#8 then 0x2F#8 else c :=
  ⟨_, fun _ => rfl⟩

theorem test_witness_DecodeChunkInvertsEncodeChunk :
    1 ≤ 1 ∧ 1 ≤ 3 ∧ 3 ≤ 3 ∧
    (⟨0x5A, 0x67, 0x3D, 0x3D⟩ : EncStage) = encodeChunk 1 0x66 0xAB 0xCD ∧
    (⟨0x5A, 0x6D, 0x39, 0x76⟩ : EncStage) = encodeChunk 3 0x66 0x6F 0x6F := by decide

theorem test_witness_ValidInputDecodesToItsLength :
    (decodeStream []).2 = true ∧ (decodeStream [0x5A, 0x67, 0x3D, 0x3D, 0x5A, 0x67, 0x3D, 0x3D]).2 = true := by
  decide

theorem test_witness_DecodingGoesOnAfterAValidPart :
    (decodeStream [0x5A, 0x67, 0x3D, 0x3D]).2 = true := by decide

theorem test_witness_FailedDecoderStaysFailedUntilABind :
    zmFailed.dec.phase = .failed ∧
    ∀ t ∈ [0x4900000004#39, 0x4A00000000#39, 0x0B00000000#39],
      ∀ w : Word, decode t = .instr (.decWctrl w) → w.getLsbD 0 = false := by
  refine ⟨by decide, fun t ht w h => ?_⟩
  simp only [List.mem_cons, List.not_mem_nil, or_false] at ht
  rcases ht with rfl | rfl | rfl
  · exact absurd h (by rw [show decode 0x4900000004#39 = .instr (.decWlen 4#32) by decide]; simp)
  · rw [show decode 0x4A00000000#39 = .instr (.decWctrl 0#32) by decide] at h
    cases h; decide
  · exact absurd h (by rw [test_decode_decPull]; simp)

theorem test_witness_ReadsOtherThanPullsHaveNoSideEffect :
    Instr.decRstatus ∈ [Instr.encRbase, .encRlen, .encRctrl, .encRstate, .encRpos, .decRbase, .decRlen,
      .decRctrl, .decRstatus, .decRpos] := by decide

theorem test_witness_OnlyRefillsReadImem :
    (∃ t, exec .encPull (foobAt 3) = .next t ∧ t.imemReads ≠ []) ∧
    (∃ t, exec .decPull (zm9vAt 8 4) = .next t ∧ t.imemReads ≠ []) :=
  ⟨⟨_, next_of_nextOf rfl, by decide⟩, ⟨_, next_of_nextOf rfl, by decide⟩⟩

theorem test_witness_TheBlockNeverWritesImem :
    ∃ (s t : State) (e : HostEvent) (rest : List HostEvent), s.inbox = e :: rest ∧
      (∀ a v, e ≠ .imemWrite a v) ∧ step s = .next t :=
  ⟨{ foPulled with inbox := [.transaction 0x0300000000#39] }, _, .transaction 0x0300000000#39, [], rfl,
    (fun _ _ h => by cases h), next_of_nextOf rfl⟩

theorem test_witness_UnitsShareNoState :
    (∃ t, exec .encPull (foobAt 3) = .next t) ∧ Instr.encPull.toEncoder = true ∧
    (∃ t, exec .decPull zmPulled = .next t) ∧ Instr.decPull.toEncoder = false :=
  ⟨⟨_, next_of_nextOf rfl⟩, rfl, ⟨_, next_of_nextOf rfl⟩, rfl⟩

theorem test_witness_TransactionsToDifferentUnitsCommute :
    Instr.encPull.toEncoder = true ∧ (Instr.decWctrl 1#32).toEncoder = false := by decide

theorem test_witness_ShadowWritesDoNotAffectTheBoundStream :
    Instr.encWlen 4#32 ∈ [Instr.encWbase 4#32, .encWlen 4#32, .decWbase 4#32, .decWlen 4#32] ∧
    Instr.encPull ∈ [Instr.encPull, .decPull] ∧ ∃ t, exec (.encWlen 4#32) foPulled = .next t :=
  ⟨by decide, by decide, ⟨_, rfl⟩⟩

theorem test_witness_ResetLeavesBothUnitsUnbound :
    ∃ (s s0 : State) (rest : List HostEvent), s0.inbox = .reset :: rest ∧ step s0 = .next s ∧
      s0.enc.phase = .streaming :=
  ⟨_, { foPulled with inbox := [.reset] }, [], rfl, next_of_nextOf rfl, by decide⟩

theorem test_witness_ResetEventRestoresTheResetState :
    (∃ s : State, s.inbox = .reset :: []) ∧
    ∃ s : State, s.inbox = .resetDuring 0x0300000000#39 :: [] :=
  ⟨⟨{ foPulled with inbox := [.reset] }, rfl⟩,
    ⟨{ foPulled with inbox := [.resetDuring 0x0300000000#39] }, rfl⟩⟩

/-- A write just behind the range 0x1000 .. 0x1001 bound to a STREAMING encoder, and one to an UNBOUND unit. -/
theorem test_witness_HostWriteChangesOneByteAndNoUnit :
    ∃ s : State, s.Inv ∧ s.inbox = .imemWrite 0x1002#32 0xFF#8 :: [] ∧ s.dec.phase ≠ .streaming ∧
      ∀ i, i < s.enc.blen.toNat → 0x1002#32 ≠ s.enc.bbase + BitVec.ofNat 32 i :=
  ⟨{ foPulled with inbox := [.imemWrite 0x1002#32 0xFF#8] },
    inv_reset_dec ⟨by decide, by decide, by decide, by decide, by decide, by decide⟩ (by decide), rfl,
    by decide, by decide⟩

/-- The last byte of each unit's range, 0x1001 and 0x2005. -/
theorem test_witness_HostWriteIntoABoundRangeBreaksTheBorrow :
    (∃ s : State, s.inbox = .imemWrite 0x1001#32 0#8 :: [] ∧ 1 < s.enc.blen.toNat ∧
      0x1001#32 = s.enc.bbase + BitVec.ofNat 32 1 ∧ s.enc.phase = .streaming) ∧
    (∃ s : State, s.inbox = .imemWrite 0x2005#32 0#8 :: [] ∧ 5 < s.dec.blen.toNat ∧
      0x2005#32 = s.dec.bbase + BitVec.ofNat 32 5 ∧ s.dec.phase = .streaming) :=
  ⟨⟨{ foPulled with inbox := [.imemWrite 0x1001#32 0#8] }, by decide⟩,
    ⟨{ zmPulled with inbox := [.imemWrite 0x2005#32 0#8] }, by decide⟩⟩

theorem test_witness_PlatformFaultsAreRefused :
    (∃ s : State, s.inbox = .narrowAccess 0x3F#6 :: []) ∧
    ∃ s : State, s.inbox = .imemReadError 0x0300000000#39 :: [] :=
  ⟨⟨{ foPulled with inbox := [.narrowAccess 0x3F#6] }, rfl⟩,
    ⟨{ foPulled with inbox := [.imemReadError 0x0300000000#39] }, rfl⟩⟩

/-- The pulls of a STREAMING encoder and of a STREAMING decoder. -/
theorem test_witness_UnfaithfulReadsAreServedAndNotIdempotent :
    (∃ s : State, s.inbox = .unfaithfulRead .speculative 0x03#6 :: [] ∧ s.enc.phase = .streaming) ∧
    ∃ s : State, s.inbox = .unfaithfulRead .duplicated 0x0B#6 :: [] ∧ s.dec.phase = .streaming :=
  ⟨⟨{ foPulled with inbox := [.unfaithfulRead .speculative 0x03#6] }, rfl, by decide⟩,
    ⟨{ zmPulled with inbox := [.unfaithfulRead .duplicated 0x0B#6] }, rfl, by decide⟩⟩

/-- R276: a retried pull consumes the next unit, and the strict machine refuses it. -/
theorem test_unfaithful_pull :
    (nextOf (step { foPulled with inbox := [.unfaithfulRead .retried 0x03#6] })).map
      (fun s => (s.response, s.enc.rd)) = some (some ⟨0x6D#32, false⟩, 2#3) ∧
    nextOf (strictStep { foPulled with inbox := [.unfaithfulRead .retried 0x03#6] }) = none := by decide

theorem test_witness_StrictMachineRefusesAndOtherwiseAgrees :
    (∃ s t : State, strictStep s = .next t ∧ s.inbox ≠ [] ∧ s.enc.broken = false ∧ s.dec.broken = false) ∧
    (decode 0x42FFFFFFFF#39 = .instr (.encWctrl 0xFFFFFFFF#32) ∧
      (0xFFFFFFFF#32).extractLsb' 1 31 ≠ 0#31) ∧
    (decode 0x4A80000000#39 = .instr (.decWctrl 0x80000000#32) ∧
      (0x80000000#32).extractLsb' 1 31 ≠ 0#31) ∧
    (foPulled.enc.phase = .streaming ∧ 0 < foPulled.enc.blen.toNat ∧
      0x1000#32 = foPulled.enc.bbase + BitVec.ofNat 32 0) ∧
    (zmPulled.dec.phase = .streaming ∧ 5 < zmPulled.dec.blen.toNat ∧
      0x2005#32 = zmPulled.dec.bbase + BitVec.ofNat 32 5) ∧
    ({ foPulled with inbox := [.resetDuring 0x0300000000#39] } : State).inbox =
      .resetDuring 0x0300000000#39 :: [] ∧
    (decode 0x4200000001#39 = .instr (.encWctrl 1#32) ∧ (Instr.encWctrl 1#32).wf = true) ∧
    decode 0x4300000000#39 = .illegal (.readOnlyWrite 0x03#6) :=
  ⟨⟨{ foPulled with inbox := [.transaction 0x0300000000#39] }, _, next_of_nextOf rfl, by decide, by decide,
    by decide⟩, by decide, by decide, by decide, by decide, rfl, by decide, by decide⟩

theorem test_witness_EveryStepKeepsTheInvariant :
    ∃ s t : State, s.Inv ∧ step s = .next t ∧ s.inbox ≠ [] :=
  ⟨{ foPulled with inbox := [.transaction 0x0300000000#39] }, _,
    inv_reset_dec ⟨by decide, by decide, by decide, by decide, by decide, by decide⟩ (by decide),
    next_of_nextOf rfl, by decide⟩

/-- Section 1.2: "Zg==$", which fails, and section 2.5: "Zh==", which does not. -/
theorem test_witness_DecoderDeliversTheDecodingOfItsInput :
    decodeStream (inputBytes (memAt 0x2000 [0x5A, 0x67, 0x3D, 0x3D, 0x24]) 0x2000 5) = ([0x66], false) ∧
    decodeStream (inputBytes (memAt 0x2000 [0x5A, 0x68, 0x3D, 0x3D]) 0x2000 4) = ([0x66], true) := by decide

/-- Section 1.1: "f" and "Zg==". -/
theorem test_witness_DecodingTheEncodersOutputGivesTheInput :
    (∃ s1, transactAll ((Pseudo.encOpen 0x1000 1).assemble ++ List.replicate (4 + 1) (encode .encPull))
        (encOn [0x66]) =
      some (List.replicate 3 (okResponse 0#32) ++ dataResponses [0x5A, 0x67, 0x3D, 0x3D] ++
        [okResponse 0x00000100#32], s1)) ∧
    [0x5A#8, 0x67#8, 0x3D#8, 0x3D#8].length < 2 ^ 32 ∧
    inputBytes (decOn [0x5A, 0x67, 0x3D, 0x3D]).imem 0x2000
      (BitVec.ofNat 32 [0x5A#8, 0x67#8, 0x3D#8, 0x3D#8].length) = [0x5A, 0x67, 0x3D, 0x3D] := by
  refine ⟨?_, by decide, by decide⟩
  have h : answers ((Pseudo.encOpen 0x1000 1).assemble ++ List.replicate (4 + 1) (encode .encPull))
      (encOn [0x66]) = some (List.replicate 3 (okResponse 0#32) ++
        dataResponses [0x5A, 0x67, 0x3D, 0x3D] ++ [okResponse 0x00000100#32]) := by decide
  obtain ⟨⟨rs, s1⟩, h1, h2⟩ := Option.map_eq_some_iff.1 h
  exact ⟨s1, h2 ▸ h1⟩

end Sys2Proof.Tests
end

/-! ## The invariant: the updates of a unit that keep it (R32 to R40, R157, R207) -/

namespace Sys2Proof.Machine

/-! ### The encoder -/

theorem EncUnit.Inv.afterReset (u : EncUnit) : u.afterReset.Inv where
  counts := .inl ⟨rfl, rfl⟩
  cursor := BitVec.le_refl 0
  aligned := .inl rfl
  drained _ := rfl
  ended _ := rfl
  unbound _ := ⟨rfl, rfl, rfl, rfl, rfl⟩

theorem EncUnit.Inv.bind (u : EncUnit) : u.bind.Inv where
  counts := .inl ⟨rfl, rfl⟩
  cursor := Nat.zero_le _
  aligned := .inl rfl
  drained _ := rfl
  ended hp := nomatch hp
  unbound hp := nomatch hp

/-- The invariant does not look at the shadow registers or at the count of free bytes, and at `broken` only
in UNBOUND. -/
theorem EncUnit.Inv.withUntracked {u : EncUnit} (hu : u.Inv) (base len : Word) (broken : Bool) (draws : Nat)
    (hbroken : u.phase = .unbound → broken = false) :
    ({ u with base := base, len := len, broken := broken, draws := draws } : EncUnit).Inv where
  counts := hu.counts
  cursor := hu.cursor
  aligned := hu.aligned
  drained := hu.drained
  ended := hu.ended
  unbound hp :=
    have ⟨hbbase, hblen, hpos, hvalid, _⟩ := hu.unbound hp
    ⟨hbbase, hblen, hpos, hvalid, hbroken hp⟩

/-- Nothing bound means no borrow to break. -/
theorem EncUnit.Inv.broken_of_unbound {u : EncUnit} (hu : u.Inv) (hp : u.phase = .unbound) :
    u.broken = false :=
  have ⟨_, _, _, _, hbroken⟩ := hu.unbound hp
  hbroken

theorem EncUnit.Inv.setBase {u : EncUnit} (hu : u.Inv) (base : Word) :
    ({ u with base := base } : EncUnit).Inv :=
  hu.withUntracked base u.len u.broken u.draws hu.broken_of_unbound

theorem EncUnit.Inv.setLen {u : EncUnit} (hu : u.Inv) (len : Word) : ({ u with len := len } : EncUnit).Inv :=
  hu.withUntracked u.base len u.broken u.draws hu.broken_of_unbound

theorem EncUnit.Inv.hostWrote {u : EncUnit} (hu : u.Inv) (a : Word) : (u.hostWrote a).Inv :=
  hu.withUntracked u.base u.len _ u.draws fun hp => by simp [hu.broken_of_unbound hp, hp]

/-- The END pull (R156). -/
theorem EncUnit.Inv.exhaust {u : EncUnit} (hu : u.Inv) (hdrained : u.rd = u.valid) (hend : u.pos = u.blen) :
    ({ u with phase := .exhausted } : EncUnit).Inv where
  counts := hu.counts
  cursor := hu.cursor
  aligned := hu.aligned
  drained _ := hdrained
  ended _ := hend
  unbound hp := nomatch hp

/-- Delivering a unit that is staged and not delivered yet (R156). -/
theorem EncUnit.Inv.deliver {u : EncUnit} (hu : u.Inv) (hp : u.phase = .streaming) (hrd : u.rd ≠ u.valid) :
    ({ u with rd := u.rd + 1 } : EncUnit).Inv where
  counts := by
    obtain ⟨hvalid, hrd0⟩ | ⟨hvalid, hlo, hhi⟩ := hu.counts
    · exact absurd (hrd0.trans hvalid.symm) hrd
    · have hne : u.rd ≠ 4 := hvalid ▸ hrd
      exact .inr ⟨hvalid, by bv_omega⟩
  cursor := hu.cursor
  aligned := hu.aligned
  drained hne := absurd hp hne
  ended hp' := nomatch hp.symm.trans hp'
  unbound hp' := nomatch hp.symm.trans hp'

/-- A refill, and the delivery of its first unit (R156). -/
theorem EncUnit.Inv.refill_deliver {u : EncUnit} (hu : u.Inv) (hp : u.phase = .streaming)
    (hne : u.pos ≠ u.blen) (m : Memory) :
    ({ u.refill m with rd := (u.refill m).rd + 1 } : EncUnit).Inv := by
  obtain ⟨hpos, hk1, hk3, hcursor, hlast⟩ := u.refill_pos_toNat hu.cursor hne
  have haligned : u.pos.toNat % 3 = 0 := hu.aligned.resolve_right hne
  exact {
    counts := .inr ⟨rfl, by simp⟩
    cursor := BitVec.le_def.2 (hpos.trans_le hcursor)
    aligned := hlast.imp
      (fun hk => by simp only [EncUnit.refill_pos, hpos]; omega)
      (fun hk => BitVec.eq_of_toNat_eq (hpos.trans hk))
    drained := fun hne' => absurd hp hne'
    ended := fun hp' => nomatch hp.symm.trans hp'
    unbound := fun hp' => nomatch hp.symm.trans hp' }

/-! ### The decoder -/

theorem DecUnit.Inv.afterReset (u : DecUnit) : u.afterReset.Inv where
  counts := BitVec.le_refl 0
  started h := absurd rfl h
  cursor := BitVec.le_refl 0
  aligned := rfl
  status := ⟨nofun, nofun⟩
  drained _ := rfl
  ended _ := rfl
  located hp := nomatch hp
  unbound _ := ⟨rfl, rfl, rfl, rfl, rfl⟩

theorem DecUnit.Inv.bind (u : DecUnit) : u.bind.Inv where
  counts := BitVec.le_refl 0
  started h := absurd rfl h
  cursor := Nat.zero_le _
  aligned := rfl
  status := ⟨nofun, nofun⟩
  drained _ := rfl
  ended hp := nomatch hp
  located hp := nomatch hp
  unbound hp := nomatch hp

/-- The invariant does not look at the shadow registers or at the count of free bytes, and at `broken` only
in UNBOUND. -/
theorem DecUnit.Inv.withUntracked {u : DecUnit} (hu : u.Inv) (base len : Word) (broken : Bool) (draws : Nat)
    (hbroken : u.phase = .unbound → broken = false) :
    ({ u with base := base, len := len, broken := broken, draws := draws } : DecUnit).Inv where
  counts := hu.counts
  started := hu.started
  cursor := hu.cursor
  aligned := hu.aligned
  status := hu.status
  drained := hu.drained
  ended := hu.ended
  located := hu.located
  unbound hp :=
    have ⟨hbbase, hblen, hpos, hvalid, _⟩ := hu.unbound hp
    ⟨hbbase, hblen, hpos, hvalid, hbroken hp⟩

/-- Nothing bound means no borrow to break. -/
theorem DecUnit.Inv.broken_of_unbound {u : DecUnit} (hu : u.Inv) (hp : u.phase = .unbound) :
    u.broken = false :=
  have ⟨_, _, _, _, hbroken⟩ := hu.unbound hp
  hbroken

theorem DecUnit.Inv.setBase {u : DecUnit} (hu : u.Inv) (base : Word) :
    ({ u with base := base } : DecUnit).Inv :=
  hu.withUntracked base u.len u.broken u.draws hu.broken_of_unbound

theorem DecUnit.Inv.setLen {u : DecUnit} (hu : u.Inv) (len : Word) : ({ u with len := len } : DecUnit).Inv :=
  hu.withUntracked u.base len u.broken u.draws hu.broken_of_unbound

theorem DecUnit.Inv.hostWrote {u : DecUnit} (hu : u.Inv) (a : Word) : (u.hostWrote a).Inv :=
  hu.withUntracked u.base u.len _ u.draws fun hp => by simp [hu.broken_of_unbound hp, hp]

theorem DecUnit.Inv.afterReads {u : DecUnit} (hu : u.Inv) : u.afterReads.Inv :=
  hu.withUntracked u.base u.len u.broken _ hu.broken_of_unbound

/-- The END pull (R206). -/
theorem DecUnit.Inv.exhaust {u : DecUnit} (hu : u.Inv) (hp : u.phase = .streaming) (hdrained : u.rd = u.valid)
    (hend : u.pos = u.blen) : ({ u with phase := .exhausted } : DecUnit).Inv where
  counts := hu.counts
  started := hu.started
  cursor := hu.cursor
  aligned := hu.aligned
  status := ⟨fun herr => (nomatch hp.symm.trans (hu.status.1 herr)), nofun⟩
  drained _ := hdrained
  ended _ := hend
  located hp' := nomatch hp'
  unbound hp' := nomatch hp'

/-- The entry into the error state (R246) of a drained decoder that is not at the end of its input. -/
theorem DecUnit.Inv.fail {u : DecUnit} (hu : u.Inv) (hdrained : u.rd = u.valid) (hne : u.pos ≠ u.blen) :
    u.fail.Inv where
  counts := hu.counts
  started := hu.started
  cursor := hu.cursor
  aligned := hu.aligned
  status := ⟨fun _ => rfl, fun _ => rfl⟩
  drained _ := hdrained
  ended hp := nomatch hp
  located _ := BitVec.lt_of_le_ne hu.cursor hne
  unbound hp := nomatch hp

/-- Delivering a unit that is staged and not delivered yet (R206). -/
theorem DecUnit.Inv.deliver {u : DecUnit} (hu : u.Inv) (hp : u.phase = .streaming) (hrd : u.rd ≠ u.valid) :
    ({ u with rd := u.rd + 1 } : DecUnit).Inv := by
  have hlt : u.rd < u.valid := BitVec.lt_of_le_ne hu.counts hrd
  exact {
    counts := by bv_omega
    started := fun _ => by bv_omega
    cursor := hu.cursor
    aligned := hu.aligned
    status := hu.status
    drained := fun hne => absurd hp hne
    ended := fun hp' => nomatch hp.symm.trans hp'
    located := fun hp' => nomatch hp.symm.trans hp'
    unbound := fun hp' => nomatch hp.symm.trans hp' }

/-- A valid chunk gives 1, 2 or 3 units (R186). -/
theorem one_le_outputCount (t2 t3 : CharClass) : 1 ≤ outputCount t2 t3 := by
  unfold outputCount
  split
  · decide
  · split <;> decide

theorem one_le_decodeClasses_n {t0 t1 t2 t3 : CharClass} (hok : (decodeClasses t0 t1 t2 t3).ok = true) :
    1 ≤ (decodeClasses t0 t1 t2 t3).n := by
  unfold decodeClasses at hok ⊢
  split_ifs at hok ⊢
  · cases hok
  · cases hok
  · cases hok
  · exact one_le_outputCount t2 t3

/-- The cursor after a decoder refill (R206): 4 bytes on, and never past the end. -/
theorem DecUnit.refill_pos_toNat {u : DecUnit} (hroom : 4 ≤ u.blen.toNat - u.pos.toNat) :
    (u.pos + 4).toNat = u.pos.toNat + 4 := by
  bv_omega

/-- A refill with a valid chunk, and the delivery of its first unit (R206). -/
theorem DecUnit.Inv.refill_deliver {u : DecUnit} (hu : u.Inv) (hp : u.phase = .streaming)
    (hroom : 4 ≤ u.blen.toNat - u.pos.toNat) {c : DecodedChunk} (hn : 1 ≤ c.n) :
    ({ u.refill c with rd := (u.refill c).rd + 1 } : DecUnit).Inv := by
  have hpos := DecUnit.refill_pos_toNat hroom
  have hcursor : u.pos.toNat + 4 ≤ u.blen.toNat := by omega
  have haligned := hu.aligned
  exact {
    counts := hn
    started := fun _ => BitVec.le_refl 1
    cursor := BitVec.le_def.2 (hpos.trans_le hcursor)
    aligned := by simp only [DecUnit.refill_pos, hpos]; omega
    status := hu.status
    drained := fun hne => absurd hp hne
    ended := fun hp' => nomatch hp.symm.trans hp'
    located := fun hp' => nomatch hp.symm.trans hp'
    unbound := fun hp' => nomatch hp.symm.trans hp' }

/-- ERR is bit 0 of DEC_STATUS (R55). -/
theorem DecUnit.statusWord_getLsbD_zero (u : DecUnit) : u.statusWord.getLsbD 0 = u.err := by
  simp [DecUnit.statusWord]

/-! ### The state -/

theorem State.Inv.respond {s : State} (hs : s.Inv) (rdata : Word) (err : Bool) (reads : List Word) :
    (s.respond rdata err reads).Inv :=
  ⟨hs.enc, hs.dec, hs.imem⟩

theorem State.Inv.setEnc {s : State} (hs : s.Inv) {u : EncUnit} (hu : u.Inv) :
    ({ s with enc := u } : State).Inv :=
  ⟨hu, hs.dec, hs.imem⟩

theorem State.Inv.setDec {s : State} (hs : s.Inv) {u : DecUnit} (hu : u.Inv) :
    ({ s with dec := u } : State).Inv :=
  ⟨hs.enc, hu, hs.imem⟩

theorem State.Inv.setInbox {s : State} (hs : s.Inv) (events : List HostEvent) :
    ({ s with inbox := events } : State).Inv :=
  ⟨hs.enc, hs.dec, hs.imem⟩

theorem State.Inv.assertReset {s : State} (hs : s.Inv) : (assertReset s).Inv :=
  ⟨.afterReset s.enc, .afterReset s.dec, hs.imem⟩

theorem State.Inv.hostImemWrite {s : State} (hs : s.Inv) (a : Word) (v : Byte) : (hostImemWrite a v s).Inv :=
  ⟨hs.enc.hostWrote a, hs.dec.hostWrote a, iMemWrite_wf hs.imem a v⟩

/-! ### Transactions and steps -/

/-- ENC_PULL keeps the invariant, in each of its cases (R156). -/
theorem encPull_keeps_inv {s t : State} (hs : s.Inv) (h : exec .encPull s = .next t) : t.Inv := by
  obtain ⟨-, e⟩ | ⟨-, e⟩ | ⟨-, hdrained, hend, e⟩ | ⟨hp, -, hne, e⟩ | ⟨hp, hrd, e⟩ :=
    encPull_cases s <;> cases e.symm.trans h
  · exact hs.respond ..
  · exact hs.respond ..
  · exact (hs.setEnc (hs.enc.exhaust hdrained hend)).respond ..
  · exact (hs.setEnc (hs.enc.refill_deliver hp hne s.imem)).respond ..
  · exact (hs.setEnc (hs.enc.deliver hp hrd)).respond ..

/-- DEC_PULL keeps the invariant, in each of its cases (R206, R246). -/
theorem decPull_keeps_inv {s t : State} (hs : s.Inv) (h : exec .decPull s = .next t) : t.Inv := by
  obtain ⟨-, e⟩ | ⟨-, e⟩ | ⟨-, e⟩ | ⟨hp, hdrained, hend, e⟩ | ⟨-, hdrained, hne, -, e⟩ |
    ⟨-, hdrained, hne, -, -, e⟩ | ⟨hp, -, -, hroom, hok, e⟩ | ⟨hp, hrd, e⟩ :=
    decPull_cases s <;> cases e.symm.trans h
  · exact hs.respond ..
  · exact hs.respond ..
  · exact hs.respond ..
  · exact (hs.setDec (hs.dec.exhaust hp hdrained hend)).respond ..
  · exact (hs.setDec (hs.dec.fail hdrained hne)).respond ..
  · exact (hs.setDec (hs.dec.afterReads.fail hdrained hne)).respond ..
  · exact (hs.setDec (hs.dec.refill_deliver hp hroom (one_le_decodeClasses_n hok))).respond ..
  · exact (hs.setDec (hs.dec.deliver hp hrd)).respond ..

/-- Every defined transaction keeps the invariant. -/
theorem exec_keeps_inv {i : Instr} {s t : State} (hs : s.Inv) (h : exec i s = .next t) : t.Inv := by
  cases i with
  | encPull => exact encPull_keeps_inv hs h
  | decPull => exact decPull_keeps_inv hs h
  | encWbase base => cases h; exact (hs.setEnc (hs.enc.setBase base)).respond ..
  | encWlen len => cases h; exact (hs.setEnc (hs.enc.setLen len)).respond ..
  | decWbase base => cases h; exact (hs.setDec (hs.dec.setBase base)).respond ..
  | decWlen len => cases h; exact (hs.setDec (hs.dec.setLen len)).respond ..
  | encWctrl wdata =>
    simp only [exec, execEncWctrl] at h
    split at h <;> cases h
    · exact (hs.setEnc (.bind s.enc)).respond ..
    · exact hs.respond ..
  | decWctrl wdata =>
    simp only [exec, execDecWctrl] at h
    split at h <;> cases h
    · exact (hs.setDec (.bind s.dec)).respond ..
    · exact hs.respond ..
  | encRbase | encRlen | encRctrl | encRstate | encRpos
  | decRbase | decRlen | decRctrl | decRstatus | decRpos => cases h; exact hs.respond ..

/-- With no event waiting a step changes nothing (R30, R256). -/
theorem step_of_inbox_nil {s : State} (hs : s.inbox = []) : step s = .next s := by
  simp [step, serveNext, hs]

/-- Serving any one event keeps the invariant. -/
theorem step_keeps_inv {s t : State} (hs : s.Inv) (h : step s = .next t) : t.Inv := by
  cases hin : s.inbox with
  | nil =>
    cases (step_of_inbox_nil hin).symm.trans h
    exact hs
  | cons e rest =>
    obtain ⟨_, _, ⟨i, -, hexec⟩ | ⟨_, -, rfl⟩⟩ | ⟨a, v, -, rfl⟩ | ⟨-, rfl⟩ := step_cases hin h
    · exact exec_keeps_inv (hs.setInbox rest) hexec
    · exact (hs.setInbox rest).respond ..
    · exact (hs.setInbox rest).hostImemWrite a v
    · exact (hs.setInbox rest).assertReset

/-! ## The obligations on the state -/

/-- Settles O8: by what a step does with an empty inbox. -/
theorem idleStepChangesNothing : Obligations.IdleStepChangesNothing :=
  fun _ => step_of_inbox_nil

/-- Settles O29: bit 0 of the status word is D.err, which the invariant ties to FAILED. -/
theorem statusReadsErrorExactlyInFailed : Obligations.StatusReadsErrorExactlyInFailed := by
  intro s hs
  refine ⟨_, _, rfl, rfl, ?_, rfl⟩
  rw [DecUnit.statusWord_getLsbD_zero]
  exact hs.dec.status

/-- Settles O53: both units at reset are units after the reset input, and an empty IMEM is canonical. -/
theorem resetMeetsTheInvariant : Obligations.ResetMeetsTheInvariant :=
  ⟨.afterReset .reset, .afterReset .reset, rfl⟩

/-- Settles O54: by cases on what a step serves; each transaction and each other event keeps the
invariant. -/
theorem everyStepKeepsTheInvariant : Obligations.EveryStepKeepsTheInvariant :=
  fun _ _ => step_keeps_inv

end Sys2Proof.Machine

/-! ## IMEM, the order of transactions, and the strict machine (spec/20_memory.md) -/

namespace Sys2Proof.Machine

/-! ### What a transaction answers and leaves alone -/

/-- Every defined transaction has a next state (R250). -/
theorem exec_eq_next (i : Instr) (s : State) : ∃ t, exec i s = .next t := by
  cases i with
  | encPull =>
    obtain ⟨-, e⟩ | ⟨-, e⟩ | ⟨-, -, -, e⟩ | ⟨-, -, -, e⟩ | ⟨-, -, e⟩ := encPull_cases s <;>
      exact ⟨_, e⟩
  | decPull =>
    obtain ⟨-, e⟩ | ⟨-, e⟩ | ⟨-, e⟩ | ⟨-, -, -, e⟩ | ⟨-, -, -, -, e⟩ | ⟨-, -, -, -, -, e⟩ |
      ⟨-, -, -, -, -, e⟩ | ⟨-, -, e⟩ := decPull_cases s <;> exact ⟨_, e⟩
  | encWctrl _ | decWctrl _ => exact ⟨_, (apply_ite Host.Outcome.next ..).symm⟩
  | encRbase | encWbase | encRlen | encWlen | encRctrl | encRstate | encRpos
  | decRbase | decWbase | decRlen | decWlen | decRctrl | decRstatus | decRpos => exact ⟨_, rfl⟩

/-- Every transaction word has a next state: a bus error is one too (R242). -/
theorem transact_eq_next (w : TxnWord) (s : State) : ∃ t, transact w s = .next t := by
  cases hw : decode w with
  | instr i => exact transact_instr hw s ▸ exec_eq_next i s
  | illegal c => exact ⟨_, transact_illegal hw s⟩

/-- What the last event was answered does not matter to the next transaction. -/
theorem transact_respond (w : TxnWord) (s : State) (rdata : Word) (err : Bool) (reads : List Word) :
    transact w (s.respond rdata err reads) = transact w s := by
  cases hw : decode w with
  | instr i => rw [transact_instr hw, transact_instr hw]; exact exec_response_irrelevant i s _ _
  | illegal c => rw [transact_illegal hw, transact_illegal hw]; rfl

/-- The reads without a side effect (R82): each answers a word of the state that no answer changes, and
nothing else happens. -/
theorem exec_of_mem_reads {i : Instr}
    (hi : i ∈ [Instr.encRbase, .encRlen, .encRctrl, .encRstate, .encRpos, .decRbase, .decRlen, .decRctrl,
      .decRstatus, .decRpos]) :
    ∃ word : State → Word, (∀ s, exec i s = .next (s.respond (word s) false [])) ∧
      ∀ s rdata err reads, word (s.respond rdata err reads) = word s := by
  simp only [List.mem_cons, List.not_mem_nil, or_false] at hi
  rcases hi with rfl | rfl | rfl | rfl | rfl | rfl | rfl | rfl | rfl | rfl
  · exact ⟨fun s => s.enc.base, fun _ => rfl, fun _ _ _ _ => rfl⟩
  · exact ⟨fun s => s.enc.len, fun _ => rfl, fun _ _ _ _ => rfl⟩
  · exact ⟨fun _ => 0, fun _ => rfl, fun _ _ _ _ => rfl⟩
  · exact ⟨fun s => s.enc.stateWord, fun _ => rfl, fun _ _ _ _ => rfl⟩
  · exact ⟨fun s => s.enc.pos, fun _ => rfl, fun _ _ _ _ => rfl⟩
  · exact ⟨fun s => s.dec.base, fun _ => rfl, fun _ _ _ _ => rfl⟩
  · exact ⟨fun s => s.dec.len, fun _ => rfl, fun _ _ _ _ => rfl⟩
  · exact ⟨fun _ => 0, fun _ => rfl, fun _ _ _ _ => rfl⟩
  · exact ⟨fun s => s.dec.statusWord, fun _ => rfl, fun _ _ _ _ => rfl⟩
  · exact ⟨fun s => s.dec.pos, fun _ => rfl, fun _ _ _ _ => rfl⟩

/-! ### The two units do not see each other (R254) -/

/-- ENC_PULL does the same whatever the decoder is (R156, R254). -/
theorem encPull_withDec {s t : State} (h : exec .encPull s = .next t) (u : DecUnit) :
    exec .encPull { s with dec := u } = .next { t with dec := u } := by
  simp only [exec, execEncPull] at h ⊢
  split at h
  · cases h; rfl
  · cases h; rfl
  · split_ifs at h ⊢ <;> cases h <;> rfl

/-- DEC_PULL does the same whatever the encoder is (R206, R254). -/
theorem decPull_withEnc {s t : State} (h : exec .decPull s = .next t) (u : EncUnit) :
    exec .decPull { s with enc := u } = .next { t with enc := u } := by
  simp only [exec, execDecPull, decRefillPull] at h ⊢
  split at h
  · cases h; rfl
  · cases h; rfl
  · cases h; rfl
  · split_ifs at h ⊢ <;> cases h <;> rfl

/-- An encoder transaction does the same whatever the decoder is. -/
theorem exec_withDec {i : Instr} {s t : State} (hi : i.toEncoder = true) (h : exec i s = .next t)
    (u : DecUnit) : exec i { s with dec := u } = .next { t with dec := u } := by
  cases i with
  | encPull => exact encPull_withDec h u
  | encWctrl wdata =>
    simp only [exec, execEncWctrl] at h ⊢
    split_ifs at h ⊢ <;> cases h <;> rfl
  | encRbase | encWbase | encRlen | encWlen | encRctrl | encRstate | encRpos => cases h; rfl
  | decRbase | decWbase | decRlen | decWlen | decRctrl | decWctrl | decPull | decRstatus | decRpos =>
    cases hi

/-- A decoder transaction does the same whatever the encoder is. -/
theorem exec_withEnc {i : Instr} {s t : State} (hi : i.toEncoder = false) (h : exec i s = .next t)
    (u : EncUnit) : exec i { s with enc := u } = .next { t with enc := u } := by
  cases i with
  | decPull => exact decPull_withEnc h u
  | decWctrl wdata =>
    simp only [exec, execDecWctrl] at h ⊢
    split_ifs at h ⊢ <;> cases h <;> rfl
  | decRbase | decWbase | decRlen | decWlen | decRctrl | decRstatus | decRpos => cases h; rfl
  | encRbase | encWbase | encRlen | encWlen | encRctrl | encWctrl | encPull | encRstate | encRpos =>
    cases hi

/-- An encoder transaction leaves the decoder as it is: it puts back whatever decoder it is given. -/
theorem exec_keeps_dec {i : Instr} {s t : State} (hi : i.toEncoder = true) (h : exec i s = .next t) :
    t.dec = s.dec := by
  have hsame : t = { t with dec := s.dec } :=
    Host.Outcome.next.inj (h.symm.trans (exec_withDec hi h s.dec))
  rw [hsame]

/-- A decoder transaction leaves the encoder as it is: it puts back whatever encoder it is given. -/
theorem exec_keeps_enc {i : Instr} {s t : State} (hi : i.toEncoder = false) (h : exec i s = .next t) :
    t.enc = s.enc := by
  have hsame : t = { t with enc := s.enc } :=
    Host.Outcome.next.inj (h.symm.trans (exec_withEnc hi h s.enc))
  rw [hsame]

/-- A decoder transaction after an encoder transaction does what it would have done before it, with the
encoder that the first one leaves (R85). -/
theorem exec_after_encoder {i j : Instr} {s si sj : State} (hi : i.toEncoder = true)
    (hj : j.toEncoder = false) (hsi : exec i s = .next si) (hsj : exec j s = .next sj) :
    exec j si = .next { sj with enc := si.enc } := by
  obtain ⟨himem, hinbox⟩ := exec_keeps_imem hsi
  have hstate : si = { ({ s with enc := si.enc } : State) with
      response := si.response, imemReads := si.imemReads } := by
    rw [← exec_keeps_dec hi hsi, ← himem, ← hinbox]
  rw [hstate, exec_response_irrelevant]
  exact exec_withEnc hj hsj si.enc

/-- An encoder transaction after a decoder transaction does what it would have done before it, with the
decoder that the first one leaves (R85). -/
theorem exec_after_decoder {i j : Instr} {s si sj : State} (hi : i.toEncoder = true)
    (hj : j.toEncoder = false) (hsi : exec i s = .next si) (hsj : exec j s = .next sj) :
    exec i sj = .next { si with dec := sj.dec } := by
  obtain ⟨himem, hinbox⟩ := exec_keeps_imem hsj
  have hstate : sj = { ({ s with dec := sj.dec } : State) with
      response := sj.response, imemReads := sj.imemReads } := by
    rw [← exec_keeps_enc hj hsj, ← himem, ← hinbox]
  rw [hstate, exec_response_irrelevant]
  exact exec_withDec hi hsi sj.dec

/-! ### The reads of a refill (R71) -/

/-- Only a pull reads IMEM (R71). -/
theorem exec_imemReads_of_not_pull {i : Instr} {s t : State} (henc : i ≠ .encPull) (hdec : i ≠ .decPull)
    (h : exec i s = .next t) : t.imemReads = [] := by
  cases i with
  | encPull => exact absurd rfl henc
  | decPull => exact absurd rfl hdec
  | encWctrl wdata => simp only [exec, execEncWctrl] at h; split at h <;> cases h <;> rfl
  | decWctrl wdata => simp only [exec, execDecWctrl] at h; split at h <;> cases h <;> rfl
  | encRbase | encWbase | encRlen | encWlen | encRctrl | encRstate | encRpos
  | decRbase | decWbase | decRlen | decWlen | decRctrl | decRstatus | decRpos => cases h; rfl

/-- ENC_PULL reads IMEM only to refill (R71, R156). -/
theorem encPull_imemReads {s t : State} (h : exec .encPull s = .next t) (hreads : t.imemReads ≠ []) :
    s.enc.phase = .streaming ∧ s.enc.rd = s.enc.valid ∧ s.enc.pos ≠ s.enc.blen ∧
      t.imemReads = chunkAddrs s.enc.bbase s.enc.pos s.enc.chunkSize := by
  obtain ⟨-, e⟩ | ⟨-, e⟩ | ⟨-, -, -, e⟩ | ⟨hp, hdrained, hne, e⟩ | ⟨-, -, e⟩ :=
    encPull_cases s <;> cases e.symm.trans h
  any_goals exact absurd rfl hreads
  exact ⟨hp, hdrained, hne, rfl⟩

/-- DEC_PULL reads IMEM only to refill, whether the chunk is valid or not (R71, R206). -/
theorem decPull_imemReads {s t : State} (h : exec .decPull s = .next t) (hreads : t.imemReads ≠ []) :
    s.dec.phase = .streaming ∧ s.dec.rd = s.dec.valid ∧ s.dec.pos ≠ s.dec.blen ∧
      4 ≤ s.dec.blen.toNat - s.dec.pos.toNat ∧
      t.imemReads = chunkAddrs s.dec.bbase s.dec.pos 4 := by
  obtain ⟨-, e⟩ | ⟨-, e⟩ | ⟨-, e⟩ | ⟨-, -, -, e⟩ | ⟨-, -, -, -, e⟩ |
    ⟨hp, hdrained, hne, hroom, -, e⟩ | ⟨hp, hdrained, hne, hroom, -, e⟩ | ⟨-, -, e⟩ :=
    decPull_cases s <;> cases e.symm.trans h
  any_goals exact absurd rfl hreads
  all_goals exact ⟨hp, hdrained, hne, hroom, rfl⟩

/-! ### The host's write and the bound range (R33, R73, R275) -/

theorem inRange_eq_false {a bbase blen : Word}
    (h : ∀ i, i < blen.toNat → a ≠ bbase + BitVec.ofNat 32 i) : inRange a bbase blen = false := by
  rw [Bool.eq_false_iff, Ne, inRange_iff]
  exact fun ⟨i, hi, ha⟩ => h i hi ha

/-- A write that does not touch a bound range of a STREAMING encoder leaves it as it is (R86). -/
theorem EncUnit.hostWrote_outside {u : EncUnit} {a : Word}
    (h : (u.phase == .streaming && inRange a u.bbase u.blen) = false) : u.hostWrote a = u := by
  simp [EncUnit.hostWrote, h]

/-- A write that does not touch a bound range of a STREAMING decoder leaves it as it is (R86). -/
theorem DecUnit.hostWrote_outside {u : DecUnit} {a : Word}
    (h : (u.phase == .streaming && inRange a u.bbase u.blen) = false) : u.hostWrote a = u := by
  simp [DecUnit.hostWrote, h]

theorem step_of_imemWrite {s : State} {a : Word} {v : Byte} {rest : List HostEvent}
    (hs : s.inbox = .imemWrite a v :: rest) :
    step s = .next (hostImemWrite a v { s with inbox := rest }) := by
  simp only [step, serveNext, hs, serveEvent]

/-! ### An unfaithful read (R276) -/

/-- An unfaithful read is served as the host's read of the word that reaches the block. -/
theorem step_of_unfaithfulRead {s : State} {breach : ReadBreach} {wa : WordAddr} {rest : List HostEvent}
    (hs : s.inbox = .unfaithfulRead breach wa :: rest) :
    step s = transact (TxnWord.make false wa 0#32) { s with inbox := rest } := by
  simp only [step, serveNext, hs]
  rfl

/-- A pull of a STREAMING encoder ends the input or delivers a unit and changes the encoder (R156): a refill
leaves it with units staged where it was drained. -/
theorem encPull_of_streaming {s t : State} (hp : s.enc.phase = .streaming)
    (h : exec .encPull s = .next t) :
    t.enc.phase = .exhausted ∨ (t.enc.phase = .streaming ∧ t.enc ≠ s.enc ∧
      ∃ u, t.response = some (okResponse (dataWord u))) := by
  obtain ⟨hp', -⟩ | ⟨hp', -⟩ | ⟨-, -, -, e⟩ | ⟨-, hdrained, -, e⟩ | ⟨-, -, e⟩ := encPull_cases s
  · cases hp.symm.trans hp'
  · cases hp.symm.trans hp'
  · cases e.symm.trans h
    exact .inl rfl
  · cases e.symm.trans h
    refine .inr ⟨hp, fun heq => ?_, _, rfl⟩
    have hrd : (1 : BitVec 3) = s.enc.rd := congrArg EncUnit.rd heq
    have hvalid : (4 : BitVec 3) = s.enc.valid := congrArg EncUnit.valid heq
    exact absurd (hrd.trans (hdrained.trans hvalid.symm)) (by decide)
  · cases e.symm.trans h
    refine .inr ⟨hp, fun heq => ?_, _, rfl⟩
    have hrd : s.enc.rd + 1 = s.enc.rd := congrArg EncUnit.rd heq
    bv_omega

/-- A pull of a STREAMING decoder ends the input, fails, or delivers a unit and changes the decoder (R206):
a refill moves the cursor. -/
theorem decPull_of_streaming {s t : State} (hp : s.dec.phase = .streaming)
    (h : exec .decPull s = .next t) :
    t.dec.phase = .exhausted ∨ t.dec.phase = .failed ∨ (t.dec.phase = .streaming ∧ t.dec ≠ s.dec ∧
      ∃ u, t.response = some (okResponse (dataWord u))) := by
  obtain ⟨hp', -⟩ | ⟨hp', -⟩ | ⟨hp', -⟩ | ⟨-, -, -, e⟩ | ⟨-, -, -, -, e⟩ | ⟨-, -, -, -, -, e⟩ |
    ⟨-, -, -, -, -, e⟩ | ⟨-, -, e⟩ := decPull_cases s
  · cases hp.symm.trans hp'
  · cases hp.symm.trans hp'
  · cases hp.symm.trans hp'
  · cases e.symm.trans h
    exact .inl rfl
  · cases e.symm.trans h
    exact .inr (.inl rfl)
  · cases e.symm.trans h
    exact .inr (.inl rfl)
  · cases e.symm.trans h
    refine .inr (.inr ⟨hp, fun heq => ?_, _, rfl⟩)
    have hpos : s.dec.pos + 4 = s.dec.pos := congrArg DecUnit.pos heq
    bv_omega
  · cases e.symm.trans h
    refine .inr (.inr ⟨hp, fun heq => ?_, _, rfl⟩)
    have hrd : s.dec.rd + 1 = s.dec.rd := congrArg DecUnit.rd heq
    bv_omega

/-! ### The strict machine -/

/-- An event with a reason to refuse it is refused for that reason. -/
theorem strictStep_of_refusal {s : State} {e : HostEvent} {rest : List HostEvent} {r : Refusal}
    (hs : s.inbox = e :: rest) (hr : strictRefusal e s = some r) : strictStep s = .refused r := by
  simp only [strictStep, hs, hr]

/-- An event with no reason to refuse it faults if it is a bus error, and is served by `step` otherwise. -/
theorem strictStep_of_no_refusal {s : State} {e : HostEvent} {rest : List HostEvent}
    (hs : s.inbox = e :: rest) (hr : strictRefusal e s = none) :
    strictStep s = if isBusError e then .fault .busError else step s := by
  simp only [strictStep, hs, hr]

/-- A strict step to a next state serves nothing, or an event that it has no reason to refuse, as `step`
does. -/
theorem strictStep_next_cases {s t : State} (h : strictStep s = .next t) :
    (s.inbox = [] ∧ t = s) ∨
      ∃ e rest, s.inbox = e :: rest ∧ strictRefusal e s = none ∧ step s = .next t := by
  cases hs : s.inbox with
  | nil =>
    simp only [strictStep, hs] at h
    cases h
    exact .inl ⟨rfl, rfl⟩
  | cons e rest =>
    cases hr : strictRefusal e s with
    | some r => exact nomatch (strictStep_of_refusal hs hr).symm.trans h
    | none =>
      rw [strictStep_of_no_refusal hs hr] at h
      split at h
      · cases h
      · exact .inr ⟨e, rest, rfl, hr, h⟩

/-- A command with a reserved bit set is ill-formed (R105). -/
theorem ctrlReservedClear_eq_false {w : Word} (hw : w.extractLsb' 1 31 ≠ 0#31) :
    ctrlReservedClear w = false :=
  beq_false_of_ne hw

theorem strictRefusal_of_reservedBits {t : TxnWord} {w : Word} (s : State)
    (ht : decode t = .instr (.encWctrl w) ∨ decode t = .instr (.decWctrl w))
    (hw : w.extractLsb' 1 31 ≠ 0#31) : strictRefusal (.transaction t) s = some .ctrlReservedBits := by
  obtain ht | ht := ht <;> simp [strictRefusal, ht, Instr.wf, ctrlReservedClear_eq_false hw]

/-- A host write is let through exactly when it touches no bound range of a STREAMING unit (R275). -/
theorem strictRefusal_imemWrite_eq_none_iff {a : Word} {v : Byte} {s : State} :
    strictRefusal (.imemWrite a v) s = none ↔
      (s.enc.phase == .streaming && inRange a s.enc.bbase s.enc.blen) = false ∧
      (s.dec.phase == .streaming && inRange a s.dec.bbase s.dec.blen) = false := by
  rw [← Bool.or_eq_false_iff, Bool.eq_false_iff]
  simp only [strictRefusal, ite_eq_right_iff, reduceCtorEq, imp_false]

/-- The borrow of neither unit is broken (log entry 6). -/
def State.Unbroken (s : State) : Prop := s.enc.broken = false ∧ s.dec.broken = false

/-- No transaction breaks a borrow: a bind ends the mark, and nothing else touches it. -/
theorem exec_keeps_unbroken {i : Instr} {s t : State} (hs : s.Unbroken) (h : exec i s = .next t) :
    t.Unbroken := by
  obtain ⟨henc, hdec⟩ := hs
  cases i with
  | encPull =>
    obtain ⟨-, e⟩ | ⟨-, e⟩ | ⟨-, -, -, e⟩ | ⟨-, -, -, e⟩ | ⟨-, -, e⟩ := encPull_cases s <;>
      cases e.symm.trans h <;> exact ⟨henc, hdec⟩
  | decPull =>
    obtain ⟨-, e⟩ | ⟨-, e⟩ | ⟨-, e⟩ | ⟨-, -, -, e⟩ | ⟨-, -, -, -, e⟩ | ⟨-, -, -, -, -, e⟩ |
      ⟨-, -, -, -, -, e⟩ | ⟨-, -, e⟩ := decPull_cases s <;>
      cases e.symm.trans h <;> exact ⟨henc, hdec⟩
  | encWctrl wdata =>
    simp only [exec, execEncWctrl] at h
    split at h <;> cases h
    · exact ⟨rfl, hdec⟩
    · exact ⟨henc, hdec⟩
  | decWctrl wdata =>
    simp only [exec, execDecWctrl] at h
    split at h <;> cases h
    · exact ⟨henc, rfl⟩
    · exact ⟨henc, hdec⟩
  | encRbase | encWbase | encRlen | encWlen | encRctrl | encRstate | encRpos
  | decRbase | decWbase | decRlen | decWlen | decRctrl | decRstatus | decRpos =>
    cases h; exact ⟨henc, hdec⟩

/-- The strict machine never lets a borrow be broken: it refuses the one event that does it. -/
theorem strictStep_keeps_unbroken {s t : State} (hs : s.Unbroken) (h : strictStep s = .next t) :
    t.Unbroken := by
  obtain ⟨-, rfl⟩ | ⟨e, rest, hin, hr, hstep⟩ := strictStep_next_cases h
  · exact hs
  obtain ⟨_, _, ⟨i, -, hexec⟩ | ⟨_, -, rfl⟩⟩ | ⟨a, v, rfl, rfl⟩ | ⟨-, rfl⟩ := step_cases hin hstep
  · exact exec_keeps_unbroken (s := { s with inbox := rest }) hs hexec
  · exact hs
  · obtain ⟨henc, hdec⟩ := strictRefusal_imemWrite_eq_none_iff.1 hr
    exact ⟨(congrArg EncUnit.broken (EncUnit.hostWrote_outside henc)).trans hs.1,
      (congrArg DecUnit.broken (DecUnit.hostWrote_outside hdec)).trans hs.2⟩
  · exact ⟨rfl, rfl⟩

/-! ### The obligations on memory -/

/-- Settles O41: by which transaction it is; a pull reads only when it refills, and then the addresses of
its chunk. -/
theorem onlyRefillsReadImem : Obligations.OnlyRefillsReadImem := by
  intro i s t h hreads
  by_cases henc : i = .encPull
  · subst henc
    obtain ⟨hp, hdrained, hne, haddrs⟩ := encPull_imemReads h hreads
    rw [haddrs, chunkAddrs_length]
    exact .inl ⟨rfl, hp, hdrained, hne, Nat.min_le_left .., fun j hj => chunkAddrs_getElem _ _ _ j hj⟩
  by_cases hdec : i = .decPull
  · subst hdec
    obtain ⟨hp, hdrained, hne, hroom, haddrs⟩ := decPull_imemReads h hreads
    rw [haddrs, chunkAddrs_length]
    exact .inr ⟨rfl, hp, hdrained, hne, hroom, rfl, fun j hj => chunkAddrs_getElem _ _ _ j hj⟩
  · exact absurd (exec_imemReads_of_not_pull henc hdec h) hreads

/-- Settles O42: by cases on what the step serves. -/
theorem theBlockNeverWritesImem : Obligations.TheBlockNeverWritesImem := by
  intro s t e rest hin hne h
  obtain ⟨_, _, ⟨i, -, hexec⟩ | ⟨_, -, rfl⟩⟩ | ⟨a, v, he, -⟩ | ⟨-, rfl⟩ := step_cases hin h
  · exact (exec_keeps_imem hexec).1
  · rfl
  · exact absurd he (hne a v)
  · rfl

/-- Settles O44: the later transaction does what it would have done first, with the other unit as the
earlier one left it. -/
theorem transactionsToDifferentUnitsCommute : Obligations.TransactionsToDifferentUnitsCommute := by
  intro i j s hi hj
  obtain ⟨si, hsi⟩ := exec_eq_next i s
  obtain ⟨sj, hsj⟩ := exec_eq_next j s
  have himem : sj.imem = si.imem := (exec_keeps_imem hsj).1.trans (exec_keeps_imem hsi).1.symm
  exact ⟨si, _, sj, _, hsi, exec_after_encoder hi hj hsi hsj, hsj, exec_after_decoder hi hj hsi hsj,
    rfl, rfl, himem, rfl, rfl⟩

/-- Settles O48: by the reads after a write of a canonical IMEM, and by what the mark of a borrow needs. -/
theorem hostWriteChangesOneByteAndNoUnit : Obligations.HostWriteChangesOneByteAndNoUnit := by
  intro s a v rest hs hin
  refine ⟨_, step_of_imemWrite hin, iMemRead_iMemWrite_same hs.imem a v,
    fun b hb => iMemRead_iMemWrite_other v hb, rfl, ?_, ?_⟩
  · rintro (hp | ha)
    · exact EncUnit.hostWrote_outside (by simp [hp])
    · exact EncUnit.hostWrote_outside (by simp [inRange_eq_false ha])
  · rintro (hp | ha)
    · exact DecUnit.hostWrote_outside (by simp [hp])
    · exact DecUnit.hostWrote_outside (by simp [inRange_eq_false ha])

/-- Settles O51: each refusal and the fault by name, agreement by cases on a strict step, and the borrows by
the refusal of bound-range writes. -/
theorem strictMachineRefusesAndOtherwiseAgrees : Obligations.StrictMachineRefusesAndOtherwiseAgrees := by
  refine ⟨?agrees, ?reserved, ?encWrite, ?decWrite, ?platform, ?wellFormed, ?unbroken, ?illegal⟩
  case agrees =>
    intro s t h
    obtain ⟨hin, rfl⟩ | ⟨_, _, -, -, hstep⟩ := strictStep_next_cases h
    · exact step_of_inbox_nil hin
    · exact hstep
  case reserved =>
    intro s t rest w hin ht hw
    exact strictStep_of_refusal hin (strictRefusal_of_reservedBits s ht hw)
  case encWrite =>
    intro s a v rest i hin hp hi ha
    exact strictStep_of_refusal hin (by simp [strictRefusal, hp, (inRange_iff ..).2 ⟨i, hi, ha⟩])
  case decWrite =>
    intro s a v rest i hin hp hi ha
    exact strictStep_of_refusal hin (by simp [strictRefusal, hp, (inRange_iff ..).2 ⟨i, hi, ha⟩])
  case platform =>
    intro s rest
    exact ⟨fun _ hin => strictStep_of_refusal hin rfl, fun _ _ hin => strictStep_of_refusal hin rfl,
      fun _ hin => strictStep_of_refusal hin rfl, fun _ hin => strictStep_of_refusal hin rfl⟩
  case wellFormed =>
    intro s t rest i hin ht hwf
    rw [strictStep_of_no_refusal hin (by simp [strictRefusal, ht, hwf])]
    simp [isBusError, ht]
  case unbroken =>
    intro s t henc hdec h
    exact strictStep_keeps_unbroken ⟨henc, hdec⟩ h
  case illegal =>
    intro s t rest c hin ht
    rw [strictStep_of_no_refusal hin (by simp [strictRefusal, ht])]
    simp [isBusError, ht]

/-- Settles O58: the read is served as the host's, and the two DATA words decode to the pulls. -/
theorem unfaithfulReadsAreServedAndNotIdempotent :
    Obligations.UnfaithfulReadsAreServedAndNotIdempotent := by
  intro s breach wa rest hin
  have hserve := step_of_unfaithfulRead hin
  obtain ⟨t, ht⟩ := transact_eq_next (TxnWord.make false wa 0#32) { s with inbox := rest }
  refine ⟨hserve, t, hserve.trans ht, ?_, ?_⟩
  · rintro rfl hp
    exact encPull_of_streaming (s := { s with inbox := rest }) hp ht
  · rintro rfl hp
    exact decPull_of_streaming (s := { s with inbox := rest }) hp ht

/-- Settles O7: by the definition of a step. -/
theorem stepRunsTheDecodedTransaction : Obligations.StepRunsTheDecodedTransaction := by
  intro s t rest i hin ht
  simp only [step, serveNext, hin, serveEvent, serveTransaction, ht]

/-- Settles O40: such a read answers a word of the state, and neither that word nor the next transaction
depends on the last answer. -/
theorem readsOtherThanPullsHaveNoSideEffect : Obligations.ReadsOtherThanPullsHaveNoSideEffect := by
  intro i hi s
  obtain ⟨word, hexec, hword⟩ := exec_of_mem_reads hi
  refine ⟨s.respond (word s) false [], hexec s, ?_, rfl, rfl, rfl, rfl,
    fun u => transact_respond u s _ _ _⟩
  rw [hexec, hword]
  rfl

/-- Settles O50: by the definition of a step. -/
theorem platformFaultsAreRefused : Obligations.PlatformFaultsAreRefused := by
  intro s rest
  constructor <;> intro _ hin <;> simp only [step, serveNext, hin, serveEvent]

end Sys2Proof.Machine

/-! ## The transaction word and the alphabet (spec/30_encoding.md) -/

namespace Sys2Proof

/-! ### Words from their fields (R100, R110) -/

/-- Decoding an assembled word looks at its three fields. -/
theorem decode_make (we : Bool) (wa : WordAddr) (wdata : Word) :
    decode (TxnWord.make we wa wdata) = if we then decodeWrite wa wdata else decodeRead wa := by
  simp only [decode, TxnWord.make_we, TxnWord.make_wa, TxnWord.make_wdata]

/-- The fields of a word stand side by side: WE, WA, WDATA. -/
theorem TxnWord.make_eq_append (we : Bool) (wa : WordAddr) (wdata : Word) :
    TxnWord.make we wa wdata = (BitVec.ofBool we ++ wa) ++ wdata := by
  refine BitVec.eq_of_getLsbD_eq fun i hi => ?_
  rw [TxnWord.make_getLsbD, BitVec.getLsbD_append, BitVec.getLsbD_append, BitVec.getLsbD_ofBool]
  by_cases hdata : i < 32
  · simp [hdata]
  · by_cases hwa : i < 38
    · simp [hdata, hwa, show i - 32 < 6 by omega]
    · obtain rfl : i = 38 := by omega
      rfl

/-- Decoding inverts encoding: each constructor's word has the fields of its own row. -/
theorem decode_encode (i : Instr) : decode (encode i) = .instr i := by
  cases i <;> exact decode_make ..

/-! ### What a word that decodes to an instruction says (R102, R103) -/

/-- A read is decoded from the word address that it is encoded with. -/
theorem of_decodeRead_eq_instr {wa : WordAddr} {i : Instr} (h : decodeRead wa = .instr i) :
    encode i = TxnWord.make false wa 0#32 ∧ i.operand = none ∧
      ∃ r ∈ opcodeTable, r.bits = TxnWord.make false wa 0#32 := by
  unfold decodeRead at h
  split at h <;> cases h <;> exact ⟨rfl, rfl, by decide⟩

/-- A write is decoded from the word address that it is encoded with, and carries the whole WDATA. -/
theorem of_decodeWrite_eq_instr {wa : WordAddr} {wdata : Word} {i : Instr}
    (h : decodeWrite wa wdata = .instr i) :
    encode i = TxnWord.make true wa wdata ∧ i.operand = some wdata ∧
      ∃ r ∈ opcodeTable, r.bits = TxnWord.make true wa 0#32 := by
  unfold decodeWrite at h
  split at h <;> cases h <;> exact ⟨rfl, rfl, by decide⟩

/-- All that decoding to an instruction says of the word: its fields, the operand, and its row. -/
theorem of_decode_eq_instr {t : TxnWord} {i : Instr} (h : decode t = .instr i) :
    encode i = TxnWord.make t.we t.wa (if t.we then t.wdata else 0#32) ∧
      i.operand = (if t.we then some t.wdata else none) ∧
      ∃ r ∈ opcodeTable, r.bits = TxnWord.make t.we t.wa 0#32 := by
  unfold decode at h
  cases hwe : t.we <;> simp only [hwe, if_true, Bool.false_eq_true, if_false] at h ⊢
  · exact of_decodeRead_eq_instr h
  · exact of_decodeWrite_eq_instr h

/-- An operand that is decoded is the word's WDATA. -/
theorem operand_eq_wdata {t : TxnWord} {i : Instr} {w : Word} (h : decode t = .instr i)
    (hw : i.operand = some w) : w = t.wdata := by
  obtain ⟨-, hoperand, -⟩ := of_decode_eq_instr h
  cases hwe : t.we <;> simp_all

/-! ### The rows of the opcode map (R103) -/

/-- Every row looks at WE and WA, and at nothing else. -/
theorem opcodeTable_mask : ∀ r ∈ opcodeTable, r.mask = 0x7F00000000#39 := by decide

/-- No two rows have the same bits. -/
theorem opcodeTable_bits_nodup : (opcodeTable.map OpcodeRow.bits).Nodup := by decide

/-- A row matches a word when its bits are the word's WE and WA. -/
theorem OpcodeRow.accepts_iff {r : OpcodeRow} (hr : r ∈ opcodeTable) (t : TxnWord) :
    r.accepts t = true ↔ r.bits = TxnWord.make t.we t.wa 0#32 := by
  have hmask : t &&& 0x7F00000000#39 = TxnWord.make t.we t.wa 0#32 :=
    (congrArg (· &&& _) t.make_eta.symm).trans (TxnWord.make_and_mask ..)
  rw [OpcodeRow.accepts, opcodeTable_mask r hr, hmask, beq_iff_eq, eq_comm]

/-- A word that a row matches decodes to an instruction with the row's mnemonic: with the row's WE and WA,
the decoder takes the arm of that row. -/
theorem OpcodeRow.decode_of_accepts {r : OpcodeRow} (hr : r ∈ opcodeTable) {t : TxnWord}
    (h : r.accepts t = true) : ∃ i, decode t = .instr i ∧ i.mnemonic = r.mnemonic := by
  have hdecode : decode t = if r.bits.we then decodeWrite r.bits.wa t.wdata else decodeRead r.bits.wa := by
    have hbits := (accepts_iff hr t).1 h
    rw [hbits, TxnWord.make_we, TxnWord.make_wa, decode]
  clear h
  simp only [opcodeTable, List.mem_append, List.mem_cons, List.not_mem_nil, or_false] at hr
  rcases hr with (rfl | rfl | rfl | rfl | rfl | rfl | rfl | rfl | rfl) |
    (rfl | rfl | rfl | rfl | rfl | rfl | rfl | rfl | rfl) <;> exact ⟨_, hdecode, rfl⟩

/-- A word decodes to an instruction exactly when some row matches it. -/
theorem exists_decode_eq_instr_iff {t : TxnWord} :
    (∃ i, decode t = .instr i) ↔ ∃ r ∈ opcodeTable, r.accepts t = true := by
  constructor
  · rintro ⟨i, h⟩
    obtain ⟨-, -, r, hr, hbits⟩ := of_decode_eq_instr h
    exact ⟨r, hr, (OpcodeRow.accepts_iff hr t).2 hbits⟩
  · rintro ⟨r, hr, h⟩
    obtain ⟨i, hi, -⟩ := OpcodeRow.decode_of_accepts hr h
    exact ⟨i, hi⟩

/-! ### The illegal pairs (R104) -/

/-- A word is illegal exactly when no row matches it. -/
theorem exists_decode_eq_illegal_iff {t : TxnWord} :
    (∃ c, decode t = .illegal c) ↔ ∀ r ∈ opcodeTable, r.accepts t = false := by
  have hnone : (∃ c, decode t = .illegal c) ↔ ¬ ∃ i, decode t = .instr i := by
    cases decode t <;> simp
  rw [hnone, exists_decode_eq_instr_iff]
  simp only [not_exists, not_and, Bool.not_eq_true]

/-- The words that can be read and not written (R104). -/
def ReadOnlyWord (wa : WordAddr) : Prop := wa ∈ [0x03#6, 0x04#6, 0x05#6, 0x0B#6, 0x0C#6, 0x0D#6]

/-- The words that are no register (R104). -/
def ReservedWord (wa : WordAddr) : Prop := wa = 0x06#6 ∨ wa = 0x07#6 ∨ 0x0E#6 ≤ wa

/-- The reserved words are those that can be neither written nor only read. -/
theorem reservedWord_iff {wa : WordAddr} : ReservedWord wa ↔
    wa ∉ [0x00#6, 0x01#6, 0x02#6, 0x08#6, 0x09#6, 0x0A#6] ∧ ¬ ReadOnlyWord wa := by
  unfold ReservedWord ReadOnlyWord
  decide +revert

/-- A read is illegal exactly at a reserved word. -/
theorem decodeRead_eq_illegal_iff {wa : WordAddr} {c : Illegal} :
    decodeRead wa = .illegal c ↔ ReservedWord wa ∧ c = .reservedWord false wa := by
  unfold decodeRead
  split
  case h_13 =>
    have hreserved : ReservedWord wa := by simp_all [reservedWord_iff, ReadOnlyWord]
    simp [hreserved, eq_comm]
  all_goals simp [ReservedWord]

/-- A write is illegal exactly at a read-only word or a reserved word. -/
theorem decodeWrite_eq_illegal_iff {wa : WordAddr} {wdata : Word} {c : Illegal} :
    decodeWrite wa wdata = .illegal c ↔
      (ReadOnlyWord wa ∧ c = .readOnlyWrite wa) ∨ (ReservedWord wa ∧ c = .reservedWord true wa) := by
  unfold decodeWrite
  split
  case h_13 =>
    have hreserved : ReservedWord wa := by simp_all [reservedWord_iff, ReadOnlyWord]
    simp [hreserved, (reservedWord_iff.1 hreserved).2, eq_comm]
  all_goals simp [ReservedWord, ReadOnlyWord, eq_comm]

/-- What is illegal, and under which name. -/
theorem decode_eq_illegal_iff {t : TxnWord} {c : Illegal} :
    decode t = .illegal c ↔ (t.we = true ∧ ReadOnlyWord t.wa ∧ c = .readOnlyWrite t.wa) ∨
      (ReservedWord t.wa ∧ c = .reservedWord t.we t.wa) := by
  unfold decode
  cases t.we <;> simp [decodeRead_eq_illegal_iff, decodeWrite_eq_illegal_iff]

end Sys2Proof

namespace Sys2Proof.Machine

/-! ### The answer to a defined transaction -/

/-- A defined transaction is answered without a bus error (R240). -/
theorem exec_response {i : Instr} {s t : State} (h : exec i s = .next t) :
    ∃ rdata, t.response = some ⟨rdata, false⟩ := by
  cases i with
  | encPull =>
    obtain ⟨-, e⟩ | ⟨-, e⟩ | ⟨-, -, -, e⟩ | ⟨-, -, -, e⟩ | ⟨-, -, e⟩ := encPull_cases s <;>
      cases e.symm.trans h <;> exact ⟨_, rfl⟩
  | decPull =>
    obtain ⟨-, e⟩ | ⟨-, e⟩ | ⟨-, e⟩ | ⟨-, -, -, e⟩ | ⟨-, -, -, -, e⟩ | ⟨-, -, -, -, -, e⟩ |
      ⟨-, -, -, -, -, e⟩ | ⟨-, -, e⟩ := decPull_cases s <;>
      cases e.symm.trans h <;> exact ⟨_, rfl⟩
  | encWctrl wdata => simp only [exec, execEncWctrl] at h; split at h <;> cases h <;> exact ⟨_, rfl⟩
  | decWctrl wdata => simp only [exec, execDecWctrl] at h; split at h <;> cases h <;> exact ⟨_, rfl⟩
  | encRbase | encWbase | encRlen | encWlen | encRctrl | encRstate | encRpos
  | decRbase | decWbase | decRlen | decWlen | decRctrl | decRstatus | decRpos => cases h; exact ⟨_, rfl⟩

/-! ### The classes of characters (R112, R114, R182) -/

/-- Every byte is invalid, padding, the alphabet's character for its value, or one of the two URL-safe
characters. -/
theorem classify_cases : ∀ c : Byte, classify c = .invalid ∨ classify c = .pad ∨
    c = encAlpha (classify c).six ∨ (c = 0x2D#8 ∧ (classify c).six = 62#6) ∨
      (c = 0x5F#8 ∧ (classify c).six = 63#6) := by decide

/-- A character with a value is the alphabet's for it, or one of the two URL-safe ones. -/
theorem of_classify_eq_value {c : Byte} {v : Six} (h : classify c = .value v) :
    c = encAlpha v ∨ (c = 0x2D#8 ∧ v = 62#6) ∨ (c = 0x5F#8 ∧ v = 63#6) := by
  simpa [h, CharClass.six] using classify_cases c

/-! ### The obligations on the encoding -/

/-- Settles O2: the fields of an encoded word are those that its row decodes. -/
theorem decodeOfEncodeIsTheInstruction : Obligations.DecodeOfEncodeIsTheInstruction :=
  decode_encode

/-- Settles O3: by what decoding to an instruction says of a word. -/
theorem encodeOfDecodeIsTheWord : Obligations.EncodeOfDecodeIsTheWord :=
  fun _ _ h => (of_decode_eq_instr h).1

/-- Settles O4: a row matches by its bits alone, which no other row has, and decoding to an instruction
fixes the operand. -/
theorem decoderFollowsTheOpcodeMap : Obligations.DecoderFollowsTheOpcodeMap := by
  refine ⟨rfl, fun t => ⟨?row, ?decodes, ?bind, ?pair, ?unique⟩⟩
  case row =>
    intro r hr h
    obtain ⟨i, hi, hmnemonic⟩ := r.decode_of_accepts hr h
    obtain ⟨-, hoperand, -⟩ := of_decode_eq_instr hi
    exact ⟨i, hi, hmnemonic, hoperand⟩
  case decodes =>
    exact fun i h => exists_decode_eq_instr_iff.1 ⟨i, h⟩
  case bind =>
    have hbind : bindBit t.wdata = t.getLsbD 0 := by simp [bindBit, TxnWord.wdata]
    rintro w (h | h) <;> rw [operand_eq_wdata h rfl, hbind]
  case pair =>
    intro u hwe hwa r hr
    rw [Bool.eq_iff_iff, r.accepts_iff hr, r.accepts_iff hr, hwe, hwa]
  case unique =>
    intro r hr q hq h h'
    exact List.inj_on_of_nodup_map opcodeTable_bits_nodup hr hq
      (((r.accepts_iff hr t).1 h).trans ((q.accepts_iff hq t).1 h').symm)

/-- Settles O5: by what is illegal under which name; the 128 pairs are counted, and a bus error changes no
state of the block. -/
theorem everyOtherPairIsAnIllegalBusError : Obligations.EveryOtherPairIsAnIllegalBusError := by
  refine ⟨fun t => ⟨?noRow, ?readOnly, ?reserved⟩, ?count, ?busError⟩
  case noRow => exact exists_decode_eq_illegal_iff
  case readOnly => simp [decode_eq_illegal_iff, ReadOnlyWord]
  case reserved => simp [decode_eq_illegal_iff, ReservedWord]
  case count => rfl
  case busError => exact fun _ _ s h => transact_illegal h s

/-- Settles O9: a next state, the response there, and the inbox that every transaction keeps. -/
theorem everyDefinedTransactionIsAnswered : Obligations.EveryDefinedTransactionIsAnswered := by
  intro i s
  obtain ⟨t, h⟩ := exec_eq_next i s
  obtain ⟨rdata, hresponse⟩ := exec_response h
  exact ⟨t, rdata, h, hresponse, (exec_keeps_imem h).2⟩

/-- Settles O1: each word is evaluated. -/
theorem sampleTransactionWordsDecode : Obligations.SampleTransactionWordsDecode := by
  unfold Obligations.SampleTransactionWordsDecode
  decide

/-- Settles O18: each of the 64 values is evaluated. -/
theorem encAlphaIsTheStandardAlphabet : Obligations.EncAlphaIsTheStandardAlphabet := by
  unfold Obligations.EncAlphaIsTheStandardAlphabet
  decide

/-- Settles O19: the inverse law and '=' from the laws of the alphabet, the values from the classes; the
256 bytes are counted. -/
theorem classifyInvertsTheAlphabet : Obligations.ClassifyInvertsTheAlphabet :=
  ⟨classify_encAlpha, by decide, by decide, classify_eq_pad_iff, fun _ _ => of_classify_eq_value, rfl⟩

/-- Settles O52: an assembled word is its fields side by side, so a write's WDATA is T[31:0]. -/
theorem pseudoInstructionsExpand : Obligations.PseudoInstructionsExpand := by
  refine ⟨by decide, by decide, fun base len => ?_, by decide, by decide, by decide⟩
  simp only [Pseudo.assemble, Pseudo.expand, List.map, encode, TxnWord.make_eq_append]
  exact ⟨rfl, rfl⟩

end Sys2Proof.Machine

/-! ## The encoder (spec/40_encoder.md) -/

namespace Sys2Proof.Machine

/-! ### ENC_PULL, one equation for each case (R156) -/

theorem encPull_of_unbound {s : State} (hp : s.enc.phase = .unbound) :
    exec .encPull s = .next (s.respond unboundWord false []) := by
  simp only [exec, execEncPull, hp]

theorem encPull_of_exhausted {s : State} (hp : s.enc.phase = .exhausted) :
    exec .encPull s = .next (s.respond endWord false []) := by
  simp only [exec, execEncPull, hp]

theorem encPull_at_end {s : State} (hp : s.enc.phase = .streaming) (hdrained : s.enc.rd = s.enc.valid)
    (hend : s.enc.pos = s.enc.blen) : exec .encPull s =
      .next ({ s with enc := { s.enc with phase := .exhausted } }.respond endWord false []) := by
  simp [exec, execEncPull, hp, EncUnit.drained, hdrained, hend]

theorem encPull_refill {s : State} (hp : s.enc.phase = .streaming) (hdrained : s.enc.rd = s.enc.valid)
    (hne : s.enc.pos ≠ s.enc.blen) : exec .encPull s =
      .next (encDeliver { s with enc := s.enc.refill s.imem }
        (chunkAddrs s.enc.bbase s.enc.pos s.enc.chunkSize)) := by
  simp [exec, execEncPull, hp, EncUnit.drained, hdrained, hne]

theorem encPull_deliver {s : State} (hp : s.enc.phase = .streaming) (hrd : s.enc.rd ≠ s.enc.valid) :
    exec .encPull s = .next (encDeliver s []) := by
  simp [exec, execEncPull, hp, EncUnit.drained, hrd]

/-- A refill of a host that has kept the borrow transcodes what IMEM holds (R140, R156, R275). -/
theorem EncUnit.refill_of_unbroken {u : EncUnit} (hu : u.broken = false) (m : Memory) : u.refill m =
    { u with
      stage := encodeChunk u.chunkSize (iMemRead m (u.bbase + u.pos))
        (if 2 ≤ u.chunkSize then iMemRead m (u.bbase + u.pos + 1#32) else 0#8)
        (if u.chunkSize = 3 then iMemRead m (u.bbase + u.pos + 2#32) else 0#8)
      valid := 4#3
      rd := 0#3
      pos := u.pos + BitVec.ofNat 32 u.chunkSize } := by
  simp [EncUnit.refill, EncUnit.fetch, hu, chunkAddr, drawsAfter]

/-! ### ENC_WCTRL, by its BIND bit (R154) -/

theorem encWctrl_of_bind {w : Word} (hw : bindBit w = true) (s : State) :
    exec (.encWctrl w) s = .next ({ s with enc := s.enc.bind }.respond 0 false []) := by
  simp only [exec, execEncWctrl, hw, if_true]

theorem encWctrl_of_not_bind {w : Word} (hw : bindBit w = false) (s : State) :
    exec (.encWctrl w) s = .next (s.respond 0 false []) := by
  simp [exec, execEncWctrl, hw]

/-! ### The phase (R159) -/

/-- All that can happen to the encoder's phase in a transaction: nothing, a bind, or the END pull. -/
theorem exec_encPhase_cases {i : Instr} {s t : State} (h : exec i s = .next t) :
    t.enc.phase = s.enc.phase ∨
    (∃ w, i = .encWctrl w ∧ bindBit w = true ∧ t.enc.phase = .streaming) ∨
    (i = .encPull ∧ s.enc.phase = .streaming ∧ s.enc.rd = s.enc.valid ∧ s.enc.pos = s.enc.blen ∧
      t.enc.phase = .exhausted ∧ t.response = some ⟨endWord, false⟩) := by
  cases i with
  | encPull =>
    obtain ⟨-, e⟩ | ⟨-, e⟩ | ⟨hp, hdrained, hend, e⟩ | ⟨-, -, -, e⟩ | ⟨-, -, e⟩ :=
      encPull_cases s <;> cases e.symm.trans h
    · exact .inl rfl
    · exact .inl rfl
    · exact .inr (.inr ⟨rfl, hp, hdrained, hend, rfl, rfl⟩)
    · exact .inl rfl
    · exact .inl rfl
  | encWctrl w =>
    cases hw : bindBit w with
    | true => cases (encWctrl_of_bind hw s).symm.trans h; exact .inr (.inl ⟨w, rfl, hw, rfl⟩)
    | false => cases (encWctrl_of_not_bind hw s).symm.trans h; exact .inl rfl
  | encRbase | encWbase | encRlen | encWlen | encRctrl | encRstate | encRpos => cases h; exact .inl rfl
  | decRbase | decWbase | decRlen | decWlen | decRctrl | decWctrl | decPull | decRstatus | decRpos =>
    exact .inl (congrArg EncUnit.phase (exec_keeps_enc rfl h))

/-! ### The staging buffer (R35, R77) -/

/-- The staged unit that a count below 4 points at is the one of that number in delivery order. -/
theorem EncStage.get_eq_of_getElem? {g : EncStage} {i : BitVec 3} {c : Byte}
    (h : g.units[i.toNat]? = some c) : g.get i = c := by
  have hi : i.toNat < 4 := (List.getElem?_eq_some_iff.1 h).1
  obtain rfl | rfl | rfl | rfl : i = 0 ∨ i = 1 ∨ i = 2 ∨ i = 3 := by bv_omega
  all_goals exact Option.some.inj h

/-- The units staged and not delivered yet, in delivery order. -/
def EncUnit.staged (u : EncUnit) : List Byte := (u.stage.units.take u.valid.toNat).drop u.rd.toNat

theorem EncUnit.staged_of_drained {u : EncUnit} (h : u.rd = u.valid) : u.staged = [] :=
  List.drop_eq_nil_of_le (by rw [h]; exact List.length_take_le ..)

/-- Delivering takes the first of them off. -/
theorem EncUnit.staged_of_ne {u : EncUnit} (hu : u.Inv) (hrd : u.rd ≠ u.valid) :
    u.staged = u.stage.get u.rd :: ({ u with rd := u.rd + 1 } : EncUnit).staged := by
  obtain ⟨hvalid, hrd0⟩ | ⟨hvalid, -, hhi⟩ := hu.counts
  · exact absurd (hrd0.trans hvalid.symm) hrd
  · have hlt : u.rd.toNat < 4 := by bv_omega
    have hnext : (u.rd + 1).toNat = u.rd.toNat + 1 := by bv_omega
    have hget : u.stage.units[u.rd.toNat]? = some (u.stage.units[u.rd.toNat]'hlt) :=
      List.getElem?_eq_getElem hlt
    rw [EncStage.get_eq_of_getElem? hget]
    simp only [EncUnit.staged, hvalid, hnext]
    exact List.drop_eq_getElem_cons hlt

/-- PEND counts them (R49). -/
theorem EncUnit.length_staged {u : EncUnit} (hu : u.Inv) : u.staged.length = u.pend.toNat := by
  have hlength : u.staged.length = min u.valid.toNat 4 - u.rd.toNat := by
    simp [EncUnit.staged, EncStage.units]
  have hcounts := hu.counts
  rw [hlength, EncUnit.pend]
  bv_omega

/-! ### The input left (R73, R140) -/

/-- The bytes that the encoder's refills have yet to fetch: what IMEM holds from the cursor on, or free bytes
once the borrow is broken. -/
def EncUnit.inputLeft (u : EncUnit) (m : Memory) : List Byte :=
  (List.range (u.blen.toNat - u.pos.toNat)).map (u.fetch m)

theorem EncUnit.length_inputLeft (u : EncUnit) (m : Memory) :
    (u.inputLeft m).length = u.blen.toNat - u.pos.toNat := by
  simp [EncUnit.inputLeft]

/-- Right after a bind it is the whole input. -/
theorem EncUnit.inputLeft_bind (u : EncUnit) (m : Memory) :
    u.bind.inputLeft m = inputBytes m u.base u.len := by
  simp [EncUnit.inputLeft, inputBytes, EncUnit.fetch, chunkAddr]

/-- After a refill the fetched bytes go on where its chunk ended, whether or not they are free. -/
theorem EncUnit.fetch_refill (u : EncUnit) (m : Memory) (j : Nat) :
    (u.refill m).fetch m j = u.fetch m (u.chunkSize + j) := by
  cases hb : u.broken <;>
    simp [EncUnit.fetch, hb, chunkAddr, drawsAfter, BitVec.ofNat_add, BitVec.add_assoc, Nat.add_assoc]

/-- A refill takes its chunk off the input left (R140). -/
theorem EncUnit.inputLeft_eq_chunk_append {u : EncUnit} (hcursor : u.pos ≤ u.blen) (hne : u.pos ≠ u.blen)
    (m : Memory) : u.inputLeft m =
      (List.range u.chunkSize).map (u.fetch m) ++ (u.refill m).inputLeft m := by
  obtain ⟨hpos, -, -, hle, -⟩ := u.refill_pos_toNat hcursor hne
  have hsplit : u.blen.toNat - u.pos.toNat =
      u.chunkSize + ((u.refill m).blen.toNat - (u.refill m).pos.toNat) := by
    simp only [EncUnit.refill_blen, EncUnit.refill_pos, hpos]
    omega
  simp only [EncUnit.inputLeft, hsplit, List.range_add, List.map_append, List.map_map]
  congr 2
  exact funext fun j => (u.fetch_refill m j).symm

/-- A refill stages the encoding of its chunk, and the rest of the input is still to be encoded (R145). -/
theorem EncUnit.encodeStream_inputLeft {u : EncUnit} (hcursor : u.pos ≤ u.blen) (hne : u.pos ≠ u.blen)
    (m : Memory) : encodeStream (u.inputLeft m) =
      (u.refill m).stage.units ++ encodeStream ((u.refill m).inputLeft m) := by
  obtain ⟨hpos, hk1, hk3, -, hlast⟩ := u.refill_pos_toNat hcursor hne
  rw [u.inputLeft_eq_chunk_append hcursor hne m]
  by_cases hk : u.chunkSize = 3
  · simp [hk, List.range_succ, encodeStream, EncUnit.refill]
  · have hnil : (u.refill m).inputLeft m = [] := by
      simp only [EncUnit.inputLeft, EncUnit.refill_blen, EncUnit.refill_pos, hpos,
        hlast.resolve_left hk, Nat.sub_self, List.range_zero, List.map_nil]
    rw [hnil]
    obtain hk | hk : u.chunkSize = 1 ∨ u.chunkSize = 2 := by omega
    · simp [hk, List.range_succ, encodeStream, EncUnit.refill]
    · simp [hk, List.range_succ, encodeStream, EncUnit.refill]

/-! ### The chunk functions (R141 to R145, R187, R190) -/

/-- The accumulator is the three bytes side by side, absent ones 0 (R141). -/
theorem packChunk_eq_append (k : Nat) (b0 b1 b2 : Byte) : packChunk k b0 b1 b2 =
    b0 ++ (if 2 ≤ k then b1 else 0#8) ++ (if k = 3 then b2 else 0#8) := by
  refine BitVec.eq_of_getLsbD_eq fun i _ => ?_
  rw [packChunk_getLsbD, BitVec.getLsbD_append, BitVec.getLsbD_append]
  by_cases h8 : i < 8
  · by_cases hk : k = 3 <;> simp [h8, hk]
  · by_cases h16 : i < 16
    · by_cases hk : 2 ≤ k <;> simp [h8, h16, hk, show i - 8 < 8 by omega]
    · simp [h8, h16, show ¬ i - 8 < 8 by omega, show i - 8 - 8 = i - 16 by omega]

/-- The four six-bit groups of three bytes side by side (R142). -/
theorem groups_of_append (x y z : Byte) :
    (x ++ y ++ z).extractLsb' 18 6 = x.extractLsb' 2 6 ∧
    (x ++ y ++ z).extractLsb' 12 6 = x.extractLsb' 0 2 ++ y.extractLsb' 4 4 ∧
    (x ++ y ++ z).extractLsb' 6 6 = y.extractLsb' 0 4 ++ z.extractLsb' 6 2 ∧
    (x ++ y ++ z).extractLsb' 0 6 = z.extractLsb' 0 6 := by
  refine ⟨?_, ?_, ?_, ?_⟩ <;>
  · refine BitVec.eq_of_getLsbD_eq fun i hi => ?_
    simp only [BitVec.getLsbD_extractLsb', BitVec.getLsbD_append]
    interval_cases i <;> rfl

/-- EncodeChunk of three bytes, on the bits of the bytes (R145). -/
theorem encodeChunk_three (b0 b1 b2 : Byte) : encodeChunk 3 b0 b1 b2 =
    ⟨encAlpha (b0.extractLsb' 2 6), encAlpha (b0.extractLsb' 0 2 ++ b1.extractLsb' 4 4),
      encAlpha (b1.extractLsb' 0 4 ++ b2.extractLsb' 6 2), encAlpha (b2.extractLsb' 0 6)⟩ := by
  obtain ⟨h0, h1, h2, h3⟩ := groups_of_append b0 b1 b2
  rw [← h0, ← h1, ← h2, ← h3, encodeChunk, packChunk_eq_append]
  rfl

/-- EncodeChunk of two bytes: the last six-bit group is padding. -/
theorem encodeChunk_two (b0 b1 b2 : Byte) : encodeChunk 2 b0 b1 b2 =
    ⟨encAlpha (b0.extractLsb' 2 6), encAlpha (b0.extractLsb' 0 2 ++ b1.extractLsb' 4 4),
      encAlpha (b1.extractLsb' 0 4 ++ 0#2), padChar⟩ := by
  obtain ⟨h0, h1, h2, -⟩ := groups_of_append b0 b1 0#8
  rw [show 0#2 = (0#8).extractLsb' 6 2 from rfl, ← h0, ← h1, ← h2, encodeChunk, packChunk_eq_append]
  rfl

/-- EncodeChunk of one byte: the last two six-bit groups are padding. -/
theorem encodeChunk_one (b0 b1 b2 : Byte) : encodeChunk 1 b0 b1 b2 =
    ⟨encAlpha (b0.extractLsb' 2 6), encAlpha (b0.extractLsb' 0 2 ++ 0#4), padChar, padChar⟩ := by
  obtain ⟨h0, h1, -, -⟩ := groups_of_append b0 0#8 0#8
  rw [show 0#4 = (0#8).extractLsb' 4 4 from rfl, ← h0, ← h1, encodeChunk, packChunk_eq_append]
  rfl

/-- Unpacking puts the parts of a byte together again, whatever stands beside them in its groups (R187). -/
theorem unpack_of_groups :
    (∀ (x : Byte) (r : BitVec 4), unpack0 (x.extractLsb' 2 6) (x.extractLsb' 0 2 ++ r) = x) ∧
    (∀ (q : BitVec 2) (y : Byte) (r : BitVec 2),
      unpack1 (q ++ y.extractLsb' 4 4) (y.extractLsb' 0 4 ++ r) = y) ∧
    (∀ (q : BitVec 4) (z : Byte), unpack2 (q ++ z.extractLsb' 6 2) (z.extractLsb' 0 6) = z) := by
  obtain ⟨h0, h1, h2⟩ := unpack_eq_append
  refine ⟨fun x r => ?_, fun q y r => ?_, fun q z => ?_⟩ <;>
  · refine BitVec.eq_of_getLsbD_eq fun i hi => ?_
    simp only [h0, h1, h2, BitVec.getLsbD_extractLsb', BitVec.getLsbD_append]
    interval_cases i <;> rfl

theorem classify_padChar : classify padChar = .pad := (classify_eq_pad_iff _).2 rfl

/-- A chunk of four characters with a value gives three bytes (R185, R187). -/
theorem decodeClasses_values (v0 v1 v2 v3 : Six) :
    decodeClasses (.value v0) (.value v1) (.value v2) (.value v3) =
      ⟨true, 3, ⟨unpack0 v0 v1, unpack1 v1 v2, unpack2 v2 v3⟩⟩ := rfl

/-- With one '=' at the end it gives two bytes. -/
theorem decodeClasses_one_pad (v0 v1 v2 : Six) :
    decodeClasses (.value v0) (.value v1) (.value v2) .pad =
      ⟨true, 2, ⟨unpack0 v0 v1, unpack1 v1 v2, 0⟩⟩ := rfl

/-- With two '=' at the end it gives one byte. -/
theorem decodeClasses_two_pads (v0 v1 : Six) :
    decodeClasses (.value v0) (.value v1) .pad .pad = ⟨true, 1, ⟨unpack0 v0 v1, 0, 0⟩⟩ := rfl

/-! ### The encoding of a byte sequence (R148, R149, R160) -/

theorem EncStage.length_units (g : EncStage) : g.units.length = 4 := rfl

/-- The length law (R148): four characters for each chunk. -/
theorem length_encodeStream (bs : List Byte) : (encodeStream bs).length = 4 * ceilDiv bs.length 3 := by
  induction bs using encodeStream.induct with
  | case1 => rfl
  | case2 | case3 => simp [encodeStream, EncStage.length_units, ceilDiv]
  | case4 b0 b1 b2 rest ih =>
    simp only [encodeStream, List.length_append, EncStage.length_units, ih, List.length_cons, ceilDiv]
    omega

/-- A character of the encoding of a chunk is the alphabet's for some value, or padding (R144, R145). -/
theorem of_mem_encodeChunk_units {k : Nat} {b0 b1 b2 c : Byte} (h : c ∈ (encodeChunk k b0 b1 b2).units) :
    (∃ v, c = encAlpha v) ∨ c = padChar := by
  simp only [EncStage.units, encodeChunk, List.mem_cons, List.not_mem_nil, or_false] at h
  obtain rfl | rfl | rfl | rfl := h
  · exact .inl ⟨_, rfl⟩
  · exact .inl ⟨_, rfl⟩
  · split
    · exact .inl ⟨_, rfl⟩
    · exact .inr rfl
  · split
    · exact .inl ⟨_, rfl⟩
    · exact .inr rfl

/-- The same of a whole encoding: it is a sequence of encoded chunks. -/
theorem of_mem_encodeStream {bs : List Byte} {c : Byte} (h : c ∈ encodeStream bs) :
    (∃ v, c = encAlpha v) ∨ c = padChar := by
  induction bs using encodeStream.induct with
  | case1 => cases h
  | case2 | case3 => exact of_mem_encodeChunk_units h
  | case4 b0 b1 b2 rest ih => exact (List.mem_append.1 h).elim of_mem_encodeChunk_units ih

theorem encAlpha_ne_pad : ∀ v : Six, encAlpha v ≠ 0x3D#8 := by decide

/-- How many '=' end the encoding of `n` bytes (R149). -/
def padCount (n : Nat) : Nat := if n % 3 = 1 then 2 else if n % 3 = 2 then 1 else 0

theorem padCount_add_three (n : Nat) : padCount (n + 3) = padCount n := by
  simp only [padCount, Nat.add_mod_right]

/-- The padding law (R149). -/
theorem encodeStream_eq_append_padding (bs : List Byte) : ∃ body : List Byte,
    encodeStream bs = body ++ List.replicate (padCount bs.length) 0x3D#8 ∧ 0x3D#8 ∉ body := by
  induction bs using encodeStream.induct with
  | case1 => exact ⟨[], rfl, List.not_mem_nil⟩
  | case2 => exact ⟨[encAlpha _, encAlpha _], rfl, by simp [(encAlpha_ne_pad _).symm]⟩
  | case3 => exact ⟨[encAlpha _, encAlpha _, encAlpha _], rfl, by simp [(encAlpha_ne_pad _).symm]⟩
  | case4 b0 b1 b2 rest ih =>
    obtain ⟨body, hbody, hpad⟩ := ih
    refine ⟨(encodeChunk 3 b0 b1 b2).units ++ body, ?_, ?_⟩
    · simp only [encodeStream, hbody, List.length_cons, padCount_add_three, List.append_assoc]
    · simp [EncStage.units, encodeChunk, (encAlpha_ne_pad _).symm, hpad]

/-! ### A STREAMING encoder and the units it has left (R156) -/

/-- The encoder is STREAMING, and `cs` are the units it has yet to deliver: the staged ones, and the encoding
of the input left. -/
structure State.EncStreams (s : State) (cs : List Byte) : Prop where
  inv : s.enc.Inv
  phase : s.enc.phase = .streaming
  left : s.enc.staged ++ encodeStream (s.enc.inputLeft s.imem) = cs

/-- A bind makes the encoding of the whole input the units left (R154). -/
theorem State.encStreams_of_bind {s : State} {u : EncUnit} (h : s.enc = u.bind) :
    s.EncStreams (encodeStream (inputBytes s.imem u.base u.len)) where
  inv := h ▸ .bind u
  phase := h ▸ rfl
  left := by rw [h, u.inputLeft_bind, u.bind.staged_of_drained rfl, List.nil_append]

/-- The count of the units left, from PEND and the cursor. -/
theorem State.EncStreams.length_eq {s : State} {cs : List Byte} (hs : s.EncStreams cs) :
    cs.length = s.enc.pend.toNat + 4 * ceilDiv (s.enc.blen.toNat - s.enc.pos.toNat) 3 := by
  rw [← hs.left, List.length_append, EncUnit.length_staged hs.inv, length_encodeStream,
    EncUnit.length_inputLeft]

/-- With no unit left the encoder is drained and at the end of its input. -/
theorem State.EncStreams.at_end {s : State} (hs : s.EncStreams []) :
    s.enc.rd = s.enc.valid ∧ s.enc.pos = s.enc.blen := by
  obtain ⟨hstaged, hinput⟩ := List.append_eq_nil_iff.1 hs.left
  have hrd : s.enc.rd = s.enc.valid := by
    by_contra hne
    rw [EncUnit.staged_of_ne hs.inv hne] at hstaged
    cases hstaged
  refine ⟨hrd, ?_⟩
  by_contra hne
  rw [EncUnit.encodeStream_inputLeft hs.inv.cursor hne] at hinput
  cases hinput

/-- A pull with a unit left delivers it (R156): the next staged one, or the first one of a refill. -/
theorem State.EncStreams.pull {s : State} {c : Byte} {cs : List Byte} (hs : s.EncStreams (c :: cs)) :
    ∃ t, exec .encPull s = .next t ∧ t.response = some (okResponse (dataWord c)) ∧ t.EncStreams cs ∧
      t.enc.blen = s.enc.blen := by
  have hleft := hs.left
  by_cases hrd : s.enc.rd = s.enc.valid
  · have hne : s.enc.pos ≠ s.enc.blen := by
      intro hend
      simp [EncUnit.staged_of_drained hrd, EncUnit.inputLeft, hend, encodeStream] at hleft
    rw [EncUnit.staged_of_drained hrd, EncUnit.encodeStream_inputLeft hs.inv.cursor hne] at hleft
    obtain ⟨rfl, rfl⟩ := List.cons_eq_cons.1 hleft
    exact ⟨_, encPull_refill hs.phase hrd hne, rfl,
      ⟨hs.inv.refill_deliver hs.phase hne s.imem, hs.phase, rfl⟩, rfl⟩
  · rw [EncUnit.staged_of_ne hs.inv hrd] at hleft
    obtain ⟨rfl, rfl⟩ := List.cons_eq_cons.1 hleft
    exact ⟨_, encPull_deliver hs.phase hrd, rfl, ⟨hs.inv.deliver hs.phase hrd, hs.phase, rfl⟩, rfl⟩

/-- Pulls deliver the units left in order. -/
theorem State.EncStreams.pulls (cs : List Byte) {ds : List Byte} {s : State} (hs : s.EncStreams (cs ++ ds)) :
    ∃ t, transactAll (List.replicate cs.length (encode .encPull)) s = some (dataResponses cs, t) ∧
      t.EncStreams ds ∧ t.enc.blen = s.enc.blen ∧ t.dec = s.dec ∧ t.imem = s.imem := by
  induction cs generalizing s with
  | nil => exact ⟨s, rfl, hs, rfl, rfl, rfl⟩
  | cons c cs ih =>
    obtain ⟨t, hpull, hresponse, ht, hblen⟩ := hs.pull
    obtain ⟨r, hrun, hr, hblen', hdec, himem⟩ := ih ht
    refine ⟨r, ?_, hr, hblen'.trans hblen, hdec.trans (exec_keeps_dec rfl hpull),
      himem.trans (exec_keeps_imem hpull).1⟩
    rw [List.length_cons, List.replicate_succ, transactAll_cons (decode_encode _) hpull hresponse, hrun]
    rfl

/-- An EXHAUSTED encoder answers END to every pull (R156, R159). -/
theorem transactAll_encPull_of_exhausted (m : Nat) {s : State} (hp : s.enc.phase = .exhausted) :
    ∃ t, transactAll (List.replicate m (encode .encPull)) s =
        some (List.replicate m (okResponse 0x00000100#32), t) ∧
      t.enc = s.enc ∧ t.dec = s.dec ∧ t.imem = s.imem := by
  induction m generalizing s with
  | zero => exact ⟨s, rfl, rfl, rfl, rfl⟩
  | succ m ih =>
    obtain ⟨t, hrun, ht⟩ := ih (s := s.respond endWord false []) hp
    refine ⟨t, ?_, ht⟩
    rw [List.replicate_succ, transactAll_cons (decode_encode _) (encPull_of_exhausted hp) rfl, hrun]
    rfl

/-- A STREAMING encoder delivers its units left and then END for ever. -/
theorem State.EncStreams.drain {s : State} {cs : List Byte} (hs : s.EncStreams cs) (m : Nat) :
    ∃ t, transactAll (List.replicate (cs.length + (m + 1)) (encode .encPull)) s =
        some (dataResponses cs ++ List.replicate (m + 1) (okResponse 0x00000100#32), t) ∧
      t.enc.phase = .exhausted ∧ t.enc.pos = s.enc.blen ∧ t.dec = s.dec ∧ t.imem = s.imem := by
  obtain ⟨r, hrun, hr, hblen, hdec, himem⟩ := pulls cs (ds := []) (by rwa [List.append_nil])
  obtain ⟨hdrained, hend⟩ := hr.at_end
  obtain ⟨t, hrun', henc, hdec', himem'⟩ := transactAll_encPull_of_exhausted m
    (s := { r with enc := { r.enc with phase := .exhausted } }.respond endWord false []) rfl
  refine ⟨t, ?_, by rw [henc]; rfl, ?_, hdec'.trans hdec, himem'.trans himem⟩
  · rw [List.replicate_add, transactAll_append _ _ _ _ _ hrun, List.replicate_succ,
      transactAll_cons (decode_encode _) (encPull_at_end hr.phase hdrained hend) rfl, hrun']
    rfl
  · rw [henc]
    exact hend.trans hblen

/-- ENC_OPEN runs to a bound encoder (R111, R154). -/
theorem transactAll_encOpen (s : State) (base len : Word) :
    transactAll (Pseudo.encOpen base len).assemble s = some (List.replicate 3 (okResponse 0#32),
      { s with enc := ({ s.enc with base := base, len := len } : EncUnit).bind }.respond 0 false []) := by
  simp only [Pseudo.assemble, Pseudo.expand, List.map]
  rw [transactAll_cons (decode_encode _) rfl rfl, transactAll_cons (decode_encode _) rfl rfl,
    transactAll_cons (decode_encode _) rfl rfl]
  rfl

/-! ### The obligations on the encoder -/

/-- Settles O17: the units left are counted by PEND and the cursor; the first `m` pulls deliver the first `m`
of them, and all are followed by END. -/
theorem encoderDrainEndsAfterExactlyItsUnits : Obligations.EncoderDrainEndsAfterExactlyItsUnits := by
  intro s n hinv hp hn
  have hs : s.EncStreams _ := ⟨hinv.enc, hp, rfl⟩
  generalize s.enc.staged ++ encodeStream (s.enc.inputLeft s.imem) = cs at hs
  have hlength : cs.length = n := hs.length_eq.trans hn.symm
  constructor
  · intro m hm
    obtain ⟨t, hrun, ht, -⟩ := State.EncStreams.pulls (cs.take m) (by rwa [List.take_append_drop])
    have htake : (cs.take m).length = m := List.length_take_of_le (hlength ▸ hm)
    rw [htake] at hrun
    exact ⟨cs.take m, t, hrun, htake, ht.phase⟩
  · obtain ⟨t, hrun, hphase, hpos, hdec, -⟩ := hs.drain 0
    exact ⟨cs, t, hlength ▸ hrun, hlength, hphase, hpos, hdec⟩

/-- Settles O55: ENC_OPEN leaves the encoding of the input as the units left, which are drained. -/
theorem encoderDeliversTheEncodingOfItsInput : Obligations.EncoderDeliversTheEncodingOfItsInput := by
  intro s base len m
  have hlength : (encodeStream (inputBytes s.imem base len)).length = 4 * ceilDiv len.toNat 3 := by
    rw [length_encodeStream, inputBytes_length]
  have hs := State.encStreams_of_bind (u := { s.enc with base := base, len := len })
    (s := { s with enc := ({ s.enc with base := base, len := len } : EncUnit).bind }.respond 0 false []) rfl
  obtain ⟨t, hrun, hphase, hpos, hdec, himem⟩ := hs.drain m
  refine ⟨t, ?_, hlength, hphase, hpos, hdec, himem⟩
  rw [respond_imem] at hrun
  rw [transactAll_append _ _ _ _ _ (transactAll_encOpen s base len), ← hlength, hrun, List.append_assoc]
  rfl

/-- Settles O13: the equation of each case; a refill's addresses and bytes are written out. -/
theorem encPullFollowsItsRule : Obligations.EncPullFollowsItsRule := by
  refine ⟨fun t h => decode_of_mask h false 0x03#6 rfl,
    fun s => ⟨?unbound, ?exhausted, ?atEnd, ?refill, ?deliver⟩⟩
  case unbound => exact encPull_of_unbound
  case exhausted => exact encPull_of_exhausted
  case atEnd => exact encPull_at_end
  case refill =>
    rintro hp hdrained hlt hunbroken k rfl b0 b1 b2 rfl rfl rfl
    rw [encPull_refill hp hdrained (BitVec.ne_of_lt hlt),
      chunkAddrs_take _ _ s.enc.chunkSize (Nat.min_le_left ..), EncUnit.refill_of_unbroken hunbroken,
      encDeliver, dataWord_eq]
    rfl
  case deliver =>
    intro hp hrd u hu
    rw [encPull_deliver hp hrd, encDeliver, EncStage.get_eq_of_getElem? hu, dataWord_eq]
    rfl

/-- Settles O15: the two reads by definition; PEND by the invariant's counts. -/
theorem encStateAndPosAreRead : Obligations.EncStateAndPosAreRead := by
  refine ⟨fun t => ⟨fun h => decode_of_mask h false 0x04#6 rfl, fun h => decode_of_mask h false 0x05#6 rfl⟩,
    fun s => ⟨?state, rfl, ?pend⟩⟩
  case state =>
    rintro p rfl
    simp only [exec, execEncRstate, EncUnit.stateWord, EncUnit.pend]
    cases s.enc.phase <;> rfl
  case pend =>
    intro hs
    have hcounts := hs.enc.counts
    refine ⟨by bv_omega, fun hp => ?_⟩
    rw [hs.enc.drained hp, BitVec.sub_self]

/-- Settles O16: by what can happen to the phase in a transaction, and by cases on what a step serves. -/
theorem encoderPhaseMachine : Obligations.EncoderPhaseMachine := by
  refine ⟨?transaction, ?bind, ?reset, ?step⟩
  case transaction =>
    intro i s t h hne
    exact (exec_encPhase_cases h).resolve_left hne
  case bind =>
    intro w s t hw h
    cases (encWctrl_of_bind hw s).symm.trans h
    rfl
  case reset =>
    intro s rest hin
    exact ⟨assertReset { s with inbox := rest }, by simp only [step, serveNext, hin, serveEvent], rfl⟩
  case step =>
    intro s t e rest hin h hne
    obtain ⟨w, he, ⟨i, hi, hexec⟩ | ⟨_, -, rfl⟩⟩ | ⟨a, v, -, rfl⟩ | ⟨he, rfl⟩ := step_cases hin h
    · exact .inl ⟨w, i, hi, hexec, he⟩
    · exact absurd rfl hne
    · exact absurd rfl hne
    · exact .inr ⟨he, rfl⟩

/-- Settles O20: the accumulator is the bytes side by side, and its groups are bits of the bytes. -/
theorem encodeChunkPacksMapsAndPads : Obligations.EncodeChunkPacksMapsAndPads :=
  fun b0 b1 b2 => ⟨rfl, by simp [packChunk], by simp [packChunk], encodeChunk_three b0 b1 b2,
    encodeChunk_two b0 b1 b2, encodeChunk_one b0 b1 b2⟩

/-- Settles O21: a character of the encoding is '=' or one of the alphabet's 64, which are evaluated. -/
theorem encoderOutputStaysInTheAlphabet : Obligations.EncoderOutputStaysInTheAlphabet := by
  intro bs c hc
  obtain ⟨v, rfl⟩ | rfl := of_mem_encodeStream hc
  · clear hc
    decide +revert
  · decide

/-- Settles O22: the padding law and the length law. -/
theorem encoderPadsAtTheEndOnly : Obligations.EncoderPadsAtTheEndOnly := by
  intro bs
  obtain ⟨body, hbody, hpad⟩ := encodeStream_eq_append_padding bs
  exact ⟨body, hbody, hpad, length_encodeStream bs⟩

/-- Settles O36: the characters' values are the groups, and unpacking puts the bytes together again. -/
theorem decodeChunkInvertsEncodeChunk : Obligations.DecodeChunkInvertsEncodeChunk := by
  rintro k b0 b1 b2 hk1 hk3 g rfl
  obtain ⟨h0, h1, h2⟩ := unpack_of_groups
  obtain rfl | rfl | rfl : k = 1 ∨ k = 2 ∨ k = 3 := by omega
  · simp only [encodeChunk_one, decodeChunk, classify_encAlpha, classify_padChar,
      decodeClasses_two_pads, h0]
    exact ⟨trivial, rfl⟩
  · simp only [encodeChunk_two, decodeChunk, classify_encAlpha, classify_padChar,
      decodeClasses_one_pad, h0, h1]
    exact ⟨trivial, rfl⟩
  · simp only [encodeChunk_three, decodeChunk, classify_encAlpha, decodeClasses_values, h0, h1, h2]
    exact ⟨trivial, rfl⟩

/-- Settles O10: the words by their row, the write and the read by definition. -/
theorem encBaseIsWrittenAndRead : Obligations.EncBaseIsWrittenAndRead :=
  ⟨rfl, fun _ _ => ⟨fun h => decode_of_mask h true 0x00#6 rfl, fun h => decode_of_mask h false 0x00#6 rfl,
    fun _ => rfl, rfl⟩⟩

/-- Settles O11: the words by their row, the write and the read by definition. -/
theorem encLenIsWrittenAndRead : Obligations.EncLenIsWrittenAndRead :=
  ⟨rfl, fun _ _ => ⟨fun h => decode_of_mask h true 0x01#6 rfl, fun h => decode_of_mask h false 0x01#6 rfl,
    fun _ => rfl, rfl⟩⟩

/-- Settles O12: the words by their row, and the command by its BIND bit. -/
theorem encCtrlBindsAndReadsZero : Obligations.EncCtrlBindsAndReadsZero :=
  fun s _ => ⟨fun h => decode_of_mask h true 0x02#6 rfl, fun h => decode_of_mask h false 0x02#6 rfl,
    fun _ hw => ⟨false, encWctrl_of_bind hw s⟩, fun _ hw => encWctrl_of_not_bind hw s, rfl⟩

end Sys2Proof.Machine

/-! ## The decoder (spec/41_decoder.md) -/

namespace Sys2Proof.Machine

/-! ### DEC_PULL, one equation for each case (R206, R246) -/

theorem decPull_of_unbound {s : State} (hp : s.dec.phase = .unbound) :
    exec .decPull s = .next (s.respond unboundWord false []) := by
  simp only [exec, execDecPull, hp]

theorem decPull_of_exhausted {s : State} (hp : s.dec.phase = .exhausted) :
    exec .decPull s = .next (s.respond endWord false []) := by
  simp only [exec, execDecPull, hp]

theorem decPull_of_failed {s : State} (hp : s.dec.phase = .failed) :
    exec .decPull s = .next (s.respond failWord false []) := by
  simp only [exec, execDecPull, hp]

theorem decPull_deliver {s : State} (hp : s.dec.phase = .streaming) (hrd : s.dec.rd ≠ s.dec.valid) :
    exec .decPull s = .next (decDeliver s []) := by
  simp [exec, execDecPull, hp, DecUnit.drained, hrd]

theorem decPull_at_end {s : State} (hp : s.dec.phase = .streaming) (hdrained : s.dec.rd = s.dec.valid)
    (hend : s.dec.pos = s.dec.blen) : exec .decPull s =
      .next ({ s with dec := { s.dec with phase := .exhausted } }.respond endWord false []) := by
  simp [exec, execDecPull, hp, DecUnit.drained, hdrained, hend]

theorem decPull_truncated {s : State} (hp : s.dec.phase = .streaming) (hdrained : s.dec.rd = s.dec.valid)
    (hne : s.dec.pos ≠ s.dec.blen) (hroom : s.dec.blen.toNat - s.dec.pos.toNat < 4) :
    exec .decPull s = .next (raiseDecodeError s []) := by
  simp [exec, execDecPull, hp, DecUnit.drained, hdrained, hne, DecUnit.truncated, hroom]

/-- With 4 bytes left the decoder is not at the end of its input. -/
theorem DecUnit.pos_ne_blen {u : DecUnit} (hroom : 4 ≤ u.blen.toNat - u.pos.toNat) : u.pos ≠ u.blen := by
  intro hend
  rw [hend] at hroom
  omega

/-- With 4 bytes left a pull of a drained decoder takes the next chunk. -/
theorem decPull_chunk {s : State} (hp : s.dec.phase = .streaming) (hdrained : s.dec.rd = s.dec.valid)
    (hroom : 4 ≤ s.dec.blen.toNat - s.dec.pos.toNat) : exec .decPull s = .next (decRefillPull s) := by
  simp [exec, execDecPull, hp, DecUnit.drained, hdrained, DecUnit.pos_ne_blen hroom, DecUnit.truncated,
    Nat.not_lt.2 hroom]

theorem decRefillPull_of_ok {s : State} (hok : (s.dec.nextChunk s.imem).ok = true) : decRefillPull s =
    decDeliver { s with dec := s.dec.refill (s.dec.nextChunk s.imem) }
      (chunkAddrs s.dec.bbase s.dec.pos 4) := by
  simp only [decRefillPull, hok, if_true]

theorem decRefillPull_of_not_ok {s : State} (hok : (s.dec.nextChunk s.imem).ok = false) : decRefillPull s =
    raiseDecodeError { s with dec := s.dec.afterReads } (chunkAddrs s.dec.bbase s.dec.pos 4) := by
  simp [decRefillPull, hok]

/-- The next chunk of a host that has kept the borrow is what IMEM holds (R206, R275). -/
theorem DecUnit.nextChunk_of_unbroken {u : DecUnit} (hu : u.broken = false) (m : Memory) :
    u.nextChunk m = decodeChunk (iMemRead m (u.bbase + u.pos)) (iMemRead m (u.bbase + u.pos + 1#32))
      (iMemRead m (u.bbase + u.pos + 2#32)) (iMemRead m (u.bbase + u.pos + 3#32)) := by
  simp [DecUnit.nextChunk, DecUnit.fetch, hu, chunkAddr]

/-- Such a chunk is read without drawing a free byte. -/
theorem DecUnit.afterReads_of_unbroken {u : DecUnit} (hu : u.broken = false) : u.afterReads = u := by
  cases u
  cases hu
  rfl

/-! ### DEC_WCTRL, by its BIND bit (R204) -/

theorem decWctrl_of_bind {w : Word} (hw : bindBit w = true) (s : State) :
    exec (.decWctrl w) s = .next ({ s with dec := s.dec.bind }.respond 0 false []) := by
  simp only [exec, execDecWctrl, hw, if_true]

theorem decWctrl_of_not_bind {w : Word} (hw : bindBit w = false) (s : State) :
    exec (.decWctrl w) s = .next (s.respond 0 false []) := by
  simp [exec, execDecWctrl, hw]

/-! ### The phase (R209) -/

/-- All that can happen to the decoder's phase in a transaction: nothing, a bind, the END pull, or a failing
pull. -/
theorem exec_decPhase_cases {i : Instr} {s t : State} (h : exec i s = .next t) :
    t.dec.phase = s.dec.phase ∨
    (∃ w, i = .decWctrl w ∧ bindBit w = true ∧ t.dec.phase = .streaming ∧ t.dec.err = false) ∨
    (i = .decPull ∧ s.dec.phase = .streaming ∧ s.dec.rd = s.dec.valid ∧ s.dec.pos = s.dec.blen ∧
      t.dec.phase = .exhausted ∧ t.response = some ⟨endWord, false⟩) ∨
    (i = .decPull ∧ s.dec.phase = .streaming ∧ s.dec.rd = s.dec.valid ∧ s.dec.pos ≠ s.dec.blen ∧
      (s.dec.blen.toNat - s.dec.pos.toNat < 4 ∨ (s.dec.nextChunk s.imem).ok = false) ∧
      t.dec.phase = .failed ∧ t.dec.err = true ∧ t.response = some ⟨failWord, false⟩) := by
  cases i with
  | decPull =>
    obtain ⟨-, e⟩ | ⟨-, e⟩ | ⟨-, e⟩ | ⟨hp, hdrained, hend, e⟩ | ⟨hp, hdrained, hne, hroom, e⟩ |
      ⟨hp, hdrained, hne, -, hok, e⟩ | ⟨-, -, -, -, -, e⟩ | ⟨-, -, e⟩ :=
      decPull_cases s <;> cases e.symm.trans h
    · exact .inl rfl
    · exact .inl rfl
    · exact .inl rfl
    · exact .inr (.inr (.inl ⟨rfl, hp, hdrained, hend, rfl, rfl⟩))
    · exact .inr (.inr (.inr ⟨rfl, hp, hdrained, hne, .inl hroom, rfl, rfl, rfl⟩))
    · exact .inr (.inr (.inr ⟨rfl, hp, hdrained, hne, .inr hok, rfl, rfl, rfl⟩))
    · exact .inl rfl
    · exact .inl rfl
  | decWctrl w =>
    cases hw : bindBit w with
    | true => cases (decWctrl_of_bind hw s).symm.trans h; exact .inr (.inl ⟨w, rfl, hw, rfl, rfl⟩)
    | false => cases (decWctrl_of_not_bind hw s).symm.trans h; exact .inl rfl
  | decRbase | decWbase | decRlen | decWlen | decRctrl | decRstatus | decRpos => cases h; exact .inl rfl
  | encRbase | encWbase | encRlen | encWlen | encRctrl | encWctrl | encPull | encRstate | encRpos =>
    exact .inl (congrArg DecUnit.phase (exec_keeps_dec rfl h))

/-! ### A FAILED decoder (R192, R247) -/

/-- The decoder stands on a failing chunk with this status flag and this cursor. -/
structure DecUnit.StuckAt (u : DecUnit) (err : Bool) (pos : Word) : Prop where
  phase : u.phase = .failed
  err : u.err = err
  pos : u.pos = pos

/-- Only a bind moves a FAILED decoder: the pull answers FAIL, and the other transactions do not touch the
phase, the flag or the cursor. -/
theorem exec_keeps_stuck {i : Instr} {s t : State} {err : Bool} {pos : Word} (hs : s.dec.StuckAt err pos)
    (hi : ∀ w, i = .decWctrl w → bindBit w = false) (h : exec i s = .next t) : t.dec.StuckAt err pos := by
  cases i with
  | decPull => cases (decPull_of_failed hs.phase).symm.trans h; exact hs
  | decWctrl w => cases (decWctrl_of_not_bind (hi w rfl) s).symm.trans h; exact hs
  | decWbase | decWlen => cases h; exact ⟨hs.phase, hs.err, hs.pos⟩
  | decRbase | decRlen | decRctrl | decRstatus | decRpos => cases h; exact hs
  | encRbase | encWbase | encRlen | encWlen | encRctrl | encWctrl | encPull | encRstate | encRpos =>
    exact exec_keeps_dec rfl h ▸ hs

/-- The same of a transaction word, which may also be a bus error; it is always answered. -/
theorem transact_keeps_stuck {w : TxnWord} {s : State} {err : Bool} {pos : Word}
    (hs : s.dec.StuckAt err pos) (hw : ∀ d, decode w = .instr (.decWctrl d) → bindBit d = false) :
    ∃ t r, transact w s = .next t ∧ t.response = some r ∧ t.dec.StuckAt err pos := by
  cases hdecode : decode w with
  | instr i =>
    obtain ⟨t, h⟩ := exec_eq_next i s
    obtain ⟨rdata, hresponse⟩ := exec_response h
    exact ⟨t, _, (transact_instr hdecode s).trans h, hresponse,
      exec_keeps_stuck hs (fun d hd => hw d (hd ▸ hdecode)) h⟩
  | illegal c => exact ⟨_, _, transact_illegal hdecode s, rfl, hs⟩

/-- The same of any number of them. -/
theorem transactAll_keeps_stuck {ts : List TxnWord} {s : State} {err : Bool} {pos : Word}
    (hs : s.dec.StuckAt err pos)
    (hts : ∀ t ∈ ts, ∀ w : Word, decode t = .instr (.decWctrl w) → bindBit w = false) :
    ∃ rs s', transactAll ts s = some (rs, s') ∧ s'.dec.StuckAt err pos := by
  induction ts generalizing s with
  | nil => exact ⟨[], s, rfl, hs⟩
  | cons w ws ih =>
    obtain ⟨hw, hws⟩ := List.forall_mem_cons.1 hts
    obtain ⟨t, r, hstep, hresponse, ht⟩ := transact_keeps_stuck hs hw
    obtain ⟨rs, s', hrun, hs'⟩ := ih ht hws
    exact ⟨r :: rs, s', by simp only [transactAll, hstep, hresponse, hrun, Option.map_some], hs'⟩

/-! ### The status word (R55, R207) -/

/-- PEND is at most 2 between transactions (R207). -/
theorem DecUnit.Inv.pend_cases {u : DecUnit} (hu : u.Inv) : u.pend = 0 ∨ u.pend = 1 ∨ u.pend = 2 := by
  have hcounts := hu.counts
  have hstarted := hu.started
  rw [DecUnit.pend]
  bv_omega

/-- PEND is 0 outside STREAMING (R207). -/
theorem DecUnit.Inv.pend_of_not_streaming {u : DecUnit} (hu : u.Inv) (hp : u.phase ≠ .streaming) :
    u.pend = 0 := by
  rw [DecUnit.pend, hu.drained hp]
  exact BitVec.sub_self _

/-- ERR is 0 outside FAILED (R40). -/
theorem DecUnit.Inv.err_eq_false {u : DecUnit} (hu : u.Inv) (hp : u.phase ≠ .failed) : u.err = false :=
  Bool.eq_false_iff.2 fun herr => hp (hu.status.1 herr)

theorem DecUnit.Inv.statusWord_of_unbound {u : DecUnit} (hu : u.Inv) (hp : u.phase = .unbound) :
    u.statusWord = 0x00#32 := by
  rw [DecUnit.statusWord, hu.pend_of_not_streaming (by simp [hp]), hu.err_eq_false (by simp [hp]), hp]
  rfl

theorem DecUnit.Inv.statusWord_of_streaming {u : DecUnit} (hu : u.Inv) (hp : u.phase = .streaming) :
    u.statusWord = 0x02#32 ∨ u.statusWord = 0x0A#32 ∨ u.statusWord = 0x12#32 := by
  rw [DecUnit.statusWord, hu.err_eq_false (by simp [hp]), hp]
  obtain hpend | hpend | hpend := hu.pend_cases <;> rw [hpend] <;> decide

theorem DecUnit.Inv.statusWord_of_exhausted {u : DecUnit} (hu : u.Inv) (hp : u.phase = .exhausted) :
    u.statusWord = 0x04#32 := by
  rw [DecUnit.statusWord, hu.pend_of_not_streaming (by simp [hp]), hu.err_eq_false (by simp [hp]), hp]
  rfl

theorem DecUnit.Inv.statusWord_of_failed {u : DecUnit} (hu : u.Inv) (hp : u.phase = .failed) :
    u.statusWord = 0x07#32 := by
  rw [DecUnit.statusWord, hu.pend_of_not_streaming (by simp [hp]), hu.status.2 hp, hp]
  rfl

/-! ### DecodeChunk (R184 to R190) -/

theorem CharClass.exists_eq_value_iff {t : CharClass} :
    (∃ v, t = .value v) ↔ t ≠ .invalid ∧ t ≠ .pad := by
  cases t <;> simp

/-- The three legal padding patterns (R185). -/
theorem decodeClasses_ok_iff {t0 t1 t2 t3 : CharClass} : (decodeClasses t0 t1 t2 t3).ok = true ↔
    (∃ v, t0 = .value v) ∧ (∃ v, t1 = .value v) ∧
      (((∃ v, t2 = .value v) ∧ ∃ v, t3 = .value v) ∨ ((∃ v, t2 = .value v) ∧ t3 = .pad) ∨
        (t2 = .pad ∧ t3 = .pad)) := by
  have hok : (decodeClasses t0 t1 t2 t3).ok = true ↔
      ¬(t0 = .invalid ∨ t1 = .invalid ∨ t2 = .invalid ∨ t3 = .invalid) ∧ ¬(t0 = .pad ∨ t1 = .pad) ∧
        ¬(t2 = .pad ∧ t3 ≠ .pad) := by
    unfold decodeClasses
    split_ifs <;> simp_all [DecodedChunk.bad]
  rw [hok]
  simp only [CharClass.exists_eq_value_iff]
  grind

/-- The padding characters of a sequence, by their class (R113, R114). -/
theorem count_pad_eq (cs : List Byte) : cs.count 0x3D#8 = (cs.map classify).count .pad := by
  rw [List.count, List.count, List.countP_map]
  refine List.countP_congr fun c _ => ?_
  simp [classify_eq_pad_iff]

/-- A valid chunk yields 3 bytes less one for each '=' (R186). -/
theorem decodeClasses_n_add_count {t0 t1 t2 t3 : CharClass} (hok : (decodeClasses t0 t1 t2 t3).ok = true) :
    (decodeClasses t0 t1 t2 t3).n.toNat + [t0, t1, t2, t3].count .pad = 3 := by
  obtain ⟨⟨v0, rfl⟩, ⟨v1, rfl⟩, ⟨⟨v2, rfl⟩, v3, rfl⟩ | ⟨⟨v2, rfl⟩, rfl⟩ | ⟨rfl, rfl⟩⟩ :=
    decodeClasses_ok_iff.1 hok
  · simp [decodeClasses_values]
  · simp [decodeClasses_one_pad]
  · simp [decodeClasses_two_pads]

theorem decodeChunk_n_add_count {c0 c1 c2 c3 : Byte} (hok : (decodeChunk c0 c1 c2 c3).ok = true) :
    (decodeChunk c0 c1 c2 c3).n.toNat + [c0, c1, c2, c3].count 0x3D#8 = 3 := by
  rw [count_pad_eq]
  exact decodeClasses_n_add_count hok

theorem DecodedChunk.length_bytes (c : DecodedChunk) : c.bytes.length = c.n.toNat := by
  rw [DecodedChunk.bytes, List.length_take]
  exact Nat.min_eq_left (Nat.le_of_lt_succ c.n.isLt)

/-- The three kinds of valid chunks, from the values of their characters (R185, R190). -/
theorem decodeChunk_values {c0 c1 c2 c3 : Byte} {v0 v1 v2 v3 : Six} (h0 : classify c0 = .value v0)
    (h1 : classify c1 = .value v1) (h2 : classify c2 = .value v2) (h3 : classify c3 = .value v3) :
    decodeChunk c0 c1 c2 c3 = ⟨true, 3, ⟨unpack0 v0 v1, unpack1 v1 v2, unpack2 v2 v3⟩⟩ := by
  rw [decodeChunk, h0, h1, h2, h3, decodeClasses_values]

theorem decodeChunk_one_pad {c0 c1 c2 : Byte} {v0 v1 v2 : Six} (h0 : classify c0 = .value v0)
    (h1 : classify c1 = .value v1) (h2 : classify c2 = .value v2) :
    decodeChunk c0 c1 c2 padChar = ⟨true, 2, ⟨unpack0 v0 v1, unpack1 v1 v2, 0⟩⟩ := by
  rw [decodeChunk, h0, h1, h2, classify_padChar, decodeClasses_one_pad]

theorem decodeChunk_two_pads {c0 c1 : Byte} {v0 v1 : Six} (h0 : classify c0 = .value v0)
    (h1 : classify c1 = .value v1) :
    decodeChunk c0 c1 padChar padChar = ⟨true, 1, ⟨unpack0 v0 v1, 0, 0⟩⟩ := by
  rw [decodeChunk, h0, h1, classify_padChar, decodeClasses_two_pads]

/-- Output byte 0 takes only the upper two bits of the second value (R187, R188). -/
theorem unpack0_congr (v0 : Six) {v1 v1' : Six} (h : v1.extractLsb' 4 2 = v1'.extractLsb' 4 2) :
    unpack0 v0 v1 = unpack0 v0 v1' := by
  obtain ⟨h0, -, -⟩ := unpack_eq_append
  rw [h0, h0, h]

/-- Output byte 1 takes only the upper four bits of the third value (R187, R188). -/
theorem unpack1_congr (v1 : Six) {v2 v2' : Six} (h : v2.extractLsb' 2 4 = v2'.extractLsb' 2 4) :
    unpack1 v1 v2 = unpack1 v1 v2' := by
  obtain ⟨-, h1, -⟩ := unpack_eq_append
  rw [h1, h1, h]

/-! ### Decoding a whole input (R180, R189, R193) -/

theorem decodeStream_of_ok {c0 c1 c2 c3 : Byte} (hok : (decodeChunk c0 c1 c2 c3).ok = true)
    (rest : List Byte) : decodeStream (c0 :: c1 :: c2 :: c3 :: rest) =
      ((decodeChunk c0 c1 c2 c3).bytes ++ (decodeStream rest).1, (decodeStream rest).2) := by
  simp only [decodeStream, hok, if_true]

theorem decodeStream_of_not_ok {c0 c1 c2 c3 : Byte} (hok : ¬(decodeChunk c0 c1 c2 c3).ok = true)
    (rest : List Byte) : decodeStream (c0 :: c1 :: c2 :: c3 :: rest) = ([], false) := by
  simp only [decodeStream, hok, if_false, Bool.false_eq_true]

/-- With 1 to 3 characters left the chunk is truncated (R180). -/
theorem decodeStream_of_truncated {cs : List Byte} (hne : cs ≠ []) (hlt : cs.length < 4) :
    decodeStream cs = ([], false) := by
  match cs with
  | [] => exact absurd rfl hne
  | [_] | [_, _] | [_, _, _] => rfl
  | _ :: _ :: _ :: _ :: _ => simp only [List.length_cons] at hlt; omega

/-- What is no whole chunk and more has less than 4 characters. -/
theorem length_lt_four_of_ne_chunk {cs : List Byte} (h : ∀ c0 c1 c2 c3 rest, cs ≠ c0 :: c1 :: c2 :: c3 :: rest) :
    cs.length < 4 := by
  match cs with
  | [] | [_] | [_, _] | [_, _, _] => simp
  | c0 :: c1 :: c2 :: c3 :: rest => exact absurd rfl (h c0 c1 c2 c3 rest)

/-- Decoding goes on after a valid part, padded or not (R189, R193). -/
theorem decodeStream_append {cs : List Byte} (h : (decodeStream cs).2 = true) (ds : List Byte) :
    decodeStream (cs ++ ds) = ((decodeStream cs).1 ++ (decodeStream ds).1, (decodeStream ds).2) := by
  induction cs using decodeStream.induct with
  | case1 => rfl
  | case2 c0 c1 c2 c3 rest c hok ih =>
    rw [decodeStream_of_ok hok] at h ⊢
    simp only [List.cons_append, decodeStream_of_ok hok, ih h, List.append_assoc]
  | case3 c0 c1 c2 c3 rest c hok => rw [decodeStream_of_not_ok hok] at h; cases h
  | case4 cs hne hshort =>
    rw [decodeStream_of_truncated hne (length_lt_four_of_ne_chunk hshort)] at h
    cases h

/-- The decode length law (R195). -/
theorem length_decodeStream {cs : List Byte} (h : (decodeStream cs).2 = true) :
    cs.length % 4 = 0 ∧ (decodeStream cs).1.length + cs.count 0x3D#8 = 3 * (cs.length / 4) := by
  induction cs using decodeStream.induct with
  | case1 => exact ⟨rfl, rfl⟩
  | case2 c0 c1 c2 c3 rest c hok ih =>
    rw [decodeStream_of_ok hok] at h ⊢
    obtain ⟨hmod, hlength⟩ := ih h
    have hchunk := decodeChunk_n_add_count hok
    have hcount : (c0 :: c1 :: c2 :: c3 :: rest).count 0x3D#8 =
        [c0, c1, c2, c3].count 0x3D#8 + rest.count 0x3D#8 := List.count_append (l₁ := [c0, c1, c2, c3])
    simp only [List.length_append, DecodedChunk.length_bytes, hcount, List.length_cons]
    omega
  | case3 c0 c1 c2 c3 rest c hok => rw [decodeStream_of_not_ok hok] at h; cases h
  | case4 cs hne hshort =>
    rw [decodeStream_of_truncated hne (length_lt_four_of_ne_chunk hshort)] at h
    cases h

/-- Whatever the input, each of its chunks gives at most 3 bytes (R209). -/
theorem length_decodeStream_le (cs : List Byte) :
    (decodeStream cs).1.length ≤ 3 * ceilDiv cs.length 4 := by
  induction cs using decodeStream.induct with
  | case1 => exact Nat.zero_le _
  | case2 c0 c1 c2 c3 rest c hok ih =>
    have hchunk := decodeChunk_n_add_count hok
    simp only [decodeStream_of_ok hok, List.length_append, DecodedChunk.length_bytes, List.length_cons,
      ceilDiv] at ih ⊢
    omega
  | case3 c0 c1 c2 c3 rest c hok => rw [decodeStream_of_not_ok hok]; exact Nat.zero_le _
  | case4 cs hne hshort =>
    rw [decodeStream_of_truncated hne (length_lt_four_of_ne_chunk hshort)]
    exact Nat.zero_le _

/-- Decoding sees a character by its class alone (R182). -/
theorem decodeChunk_of_classify_eq {f : Byte → Byte} (hf : ∀ c, classify (f c) = classify c)
    (c0 c1 c2 c3 : Byte) : decodeChunk (f c0) (f c1) (f c2) (f c3) = decodeChunk c0 c1 c2 c3 := by
  simp only [decodeChunk, hf]

theorem decodeStream_map_of_classify_eq {f : Byte → Byte} (hf : ∀ c, classify (f c) = classify c)
    (cs : List Byte) : decodeStream (cs.map f) = decodeStream cs := by
  have hchunk := decodeChunk_of_classify_eq hf
  induction cs using decodeStream.induct with
  | case1 => rfl
  | case2 c0 c1 c2 c3 rest c hok ih => simp only [List.map_cons, decodeStream, hchunk, ih]
  | case3 c0 c1 c2 c3 rest c hok =>
    rw [decodeStream_of_not_ok hok]
    exact decodeStream_of_not_ok (hchunk c0 c1 c2 c3 ▸ hok) (rest.map f)
  | case4 cs hne hshort =>
    have hlt := length_lt_four_of_ne_chunk hshort
    rw [decodeStream_of_truncated hne hlt]
    exact decodeStream_of_truncated (by simpa using hne) (by simpa using hlt)

/-- '-' and '_' have the classes of '+' and '/' (R183). -/
theorem classify_urlSafe : ∀ c : Byte, classify (if c = 0x2D#8 then 0x2B#8 else
    if c = 0x5F#8 then 0x2F#8 else c) = classify c := by decide

/-- Decoding the encoding of a chunk, and what follows it (R190). -/
theorem decodeStream_units_append {k : Nat} (hk1 : 1 ≤ k) (hk3 : k ≤ 3) (b0 b1 b2 : Byte) (cs : List Byte) :
    decodeStream ((encodeChunk k b0 b1 b2).units ++ cs) =
      ([b0, b1, b2].take k ++ (decodeStream cs).1, (decodeStream cs).2) := by
  obtain ⟨hok, hbytes⟩ := decodeChunkInvertsEncodeChunk k b0 b1 b2 hk1 hk3 _ rfl
  rw [← hbytes]
  exact decodeStream_of_ok hok cs

/-- The round trip on byte sequences (R196). -/
theorem decodeStream_encodeStream (bs : List Byte) : decodeStream (encodeStream bs) = (bs, true) := by
  induction bs using encodeStream.induct with
  | case1 => rfl
  | case2 b0 => exact decodeStream_units_append (k := 1) (by decide) (by decide) b0 0 0 []
  | case3 b0 b1 => exact decodeStream_units_append (k := 2) (by decide) (by decide) b0 b1 0 []
  | case4 b0 b1 b2 rest ih =>
    rw [encodeStream, decodeStream_units_append (by decide) (by decide), ih]
    rfl

/-! ### The staging buffer (R39, R187) -/

/-- The three staged units in the order they are delivered (R187). -/
def DecStage.units (g : DecStage) : List Byte := [g.u0, g.u1, g.u2]

/-- The staged unit that a count below 3 points at is the one of that number in delivery order. -/
theorem DecStage.get_eq_of_getElem? {g : DecStage} {i : BitVec 2} {c : Byte}
    (h : g.units[i.toNat]? = some c) : g.get i = c := by
  have hi : i.toNat < 3 := (List.getElem?_eq_some_iff.1 h).1
  obtain rfl | rfl | rfl : i = 0 ∨ i = 1 ∨ i = 2 := by bv_omega
  all_goals exact Option.some.inj h

/-- The units staged and not delivered yet, in delivery order. -/
def DecUnit.staged (u : DecUnit) : List Byte := (u.stage.units.take u.valid.toNat).drop u.rd.toNat

theorem DecUnit.staged_of_drained {u : DecUnit} (h : u.rd = u.valid) : u.staged = [] :=
  List.drop_eq_nil_of_le (by rw [h]; exact List.length_take_le ..)

/-- Delivering takes the first of them off. -/
theorem DecUnit.staged_of_lt {u : DecUnit} (h : u.rd < u.valid) :
    u.staged = u.stage.get u.rd :: ({ u with rd := u.rd + 1 } : DecUnit).staged := by
  have hlt : u.rd.toNat < u.valid.toNat := h
  have hvalid : u.valid.toNat ≤ 3 := Nat.le_of_lt_succ u.valid.isLt
  have hnext : (u.rd + 1).toNat = u.rd.toNat + 1 := by bv_omega
  have hunits : u.rd.toNat < u.stage.units.length := Nat.lt_of_lt_of_le hlt hvalid
  rw [DecStage.get_eq_of_getElem? (List.getElem?_eq_getElem hunits)]
  simp only [DecUnit.staged, hnext]
  rw [List.drop_eq_getElem_cons (by rw [List.length_take]; exact Nat.lt_min.2 ⟨hlt, hunits⟩),
    List.getElem_take]

/-- PEND counts them (R55). -/
theorem DecUnit.length_staged {u : DecUnit} (hu : u.Inv) : u.staged.length = u.pend.toNat := by
  have hlength : u.staged.length = min u.valid.toNat 3 - u.rd.toNat := by
    simp [DecUnit.staged, DecStage.units]
  have hcounts := hu.counts
  rw [hlength, DecUnit.pend]
  bv_omega

/-! ### The input left (R73, R180) -/

/-- The bytes that the decoder's refills have yet to fetch: what IMEM holds from the cursor on, or free bytes
once the borrow is broken. -/
def DecUnit.inputLeft (u : DecUnit) (m : Memory) : List Byte :=
  (List.range (u.blen.toNat - u.pos.toNat)).map (u.fetch m)

theorem DecUnit.length_inputLeft (u : DecUnit) (m : Memory) :
    (u.inputLeft m).length = u.blen.toNat - u.pos.toNat := by
  simp [DecUnit.inputLeft]

/-- Right after a bind it is the whole input. -/
theorem DecUnit.inputLeft_bind (u : DecUnit) (m : Memory) :
    u.bind.inputLeft m = inputBytes m u.base u.len := by
  simp [DecUnit.inputLeft, inputBytes, DecUnit.fetch, chunkAddr]

/-- After a refill the fetched bytes go on where its chunk ended, whether or not they are free. -/
theorem DecUnit.fetch_refill (u : DecUnit) (c : DecodedChunk) (m : Memory) (j : Nat) :
    (u.refill c).fetch m j = u.fetch m (4 + j) := by
  cases hb : u.broken <;>
    simp [DecUnit.fetch, hb, chunkAddr, drawsAfter, BitVec.ofNat_add, BitVec.add_assoc, Nat.add_assoc]

/-- A refill takes its chunk off the input left (R180). -/
theorem DecUnit.inputLeft_eq_chunk_append {u : DecUnit} (hroom : 4 ≤ u.blen.toNat - u.pos.toNat)
    (c : DecodedChunk) (m : Memory) : u.inputLeft m =
      u.fetch m 0 :: u.fetch m 1 :: u.fetch m 2 :: u.fetch m 3 :: (u.refill c).inputLeft m := by
  have hsplit : u.blen.toNat - u.pos.toNat =
      4 + ((u.refill c).blen.toNat - (u.refill c).pos.toNat) := by
    simp only [DecUnit.refill_blen, DecUnit.refill_pos, DecUnit.refill_pos_toNat hroom]
    omega
  have hrest : (u.refill c).fetch m = u.fetch m ∘ (4 + ·) := funext (u.fetch_refill c m)
  simp only [DecUnit.inputLeft, hsplit, List.range_add, List.map_append, List.map_map, hrest]
  rfl

/-! ### What decoding the input left gives, by what the next pull finds (R180, R190) -/

theorem DecUnit.decodeStream_inputLeft_at_end {u : DecUnit} (hend : u.pos = u.blen) (m : Memory) :
    decodeStream (u.inputLeft m) = ([], true) := by
  simp [DecUnit.inputLeft, hend, decodeStream]

theorem DecUnit.decodeStream_inputLeft_truncated {u : DecUnit} (hlt : u.pos < u.blen)
    (hroom : u.blen.toNat - u.pos.toNat < 4) (m : Memory) : decodeStream (u.inputLeft m) = ([], false) := by
  have hlength := u.length_inputLeft m
  refine decodeStream_of_truncated (fun hnil => ?_) (hlength.trans_lt hroom)
  rw [hnil, List.length_nil] at hlength
  bv_omega

theorem DecUnit.decodeStream_inputLeft_not_ok {u : DecUnit} (hroom : 4 ≤ u.blen.toNat - u.pos.toNat)
    {m : Memory} (hok : (u.nextChunk m).ok = false) : decodeStream (u.inputLeft m) = ([], false) := by
  rw [u.inputLeft_eq_chunk_append hroom (u.nextChunk m)]
  exact decodeStream_of_not_ok (Bool.eq_false_iff.1 hok) _

theorem DecUnit.decodeStream_inputLeft_ok {u : DecUnit} (hroom : 4 ≤ u.blen.toNat - u.pos.toNat)
    {m : Memory} (hok : (u.nextChunk m).ok = true) : decodeStream (u.inputLeft m) =
      ((u.refill (u.nextChunk m)).staged ++ (decodeStream ((u.refill (u.nextChunk m)).inputLeft m)).1,
        (decodeStream ((u.refill (u.nextChunk m)).inputLeft m)).2) := by
  rw [u.inputLeft_eq_chunk_append hroom (u.nextChunk m)]
  exact decodeStream_of_ok hok _

/-- A valid chunk stages a unit to deliver (R186). -/
theorem DecUnit.rd_lt_valid_refill {u : DecUnit} {m : Memory} (hok : (u.nextChunk m).ok = true) :
    (u.refill (u.nextChunk m)).rd < (u.refill (u.nextChunk m)).valid :=
  one_le_decodeClasses_n hok

/-! ### A STREAMING decoder and the units it has left (R206) -/

/-- The decoder is STREAMING, `bs` are the units it has yet to deliver, the staged ones and the valid part
of the input left, and `ok` says whether END or FAIL follows them. -/
structure State.DecStreams (s : State) (bs : List Byte) (ok : Bool) : Prop where
  inv : s.dec.Inv
  phase : s.dec.phase = .streaming
  left : (s.dec.staged ++ (decodeStream (s.dec.inputLeft s.imem)).1,
    (decodeStream (s.dec.inputLeft s.imem)).2) = (bs, ok)

/-- A bind makes the decoding of the whole input the units left (R204). -/
theorem State.decStreams_of_bind {s : State} {u : DecUnit} (h : s.dec = u.bind) :
    s.DecStreams (decodeStream (inputBytes s.imem u.base u.len)).1
      (decodeStream (inputBytes s.imem u.base u.len)).2 where
  inv := h ▸ .bind u
  phase := h ▸ rfl
  left := by rw [h, u.inputLeft_bind, u.bind.staged_of_drained rfl, List.nil_append]

/-- There are at most as many units left as PEND and the cursor allow (R209). -/
theorem State.DecStreams.length_le {s : State} {bs : List Byte} {ok : Bool} (hs : s.DecStreams bs ok) :
    bs.length ≤ s.dec.pend.toNat + 3 * ceilDiv (s.dec.blen.toNat - s.dec.pos.toNat) 4 := by
  obtain ⟨rfl, -⟩ := Prod.mk.inj hs.left
  rw [List.length_append, DecUnit.length_staged hs.inv, ← s.dec.length_inputLeft s.imem]
  exact Nat.add_le_add_left (length_decodeStream_le _) _

/-- Of a drained decoder they are all in the input left. -/
theorem State.DecStreams.of_drained {s : State} {bs : List Byte} {ok : Bool} (hs : s.DecStreams bs ok)
    (hdrained : s.dec.rd = s.dec.valid) : decodeStream (s.dec.inputLeft s.imem) = (bs, ok) := by
  simpa [DecUnit.staged_of_drained hdrained] using hs.left

/-- The decoder has ended: EXHAUSTED after a valid input, FAILED otherwise (R191, R209). -/
structure DecUnit.Ended (u : DecUnit) (ok : Bool) : Prop where
  inv : u.Inv
  phase : u.phase = if ok then .exhausted else .failed

/-- What the pulls of a decoder that has ended answer: END or FAIL (R192, R194). -/
def finalWord (ok : Bool) : Word := if ok then 0x00000100#32 else 0x00000200#32

/-- What a pull of a STREAMING decoder does (R206, R246): it delivers the first unit left, the next staged one
or the first one of a valid chunk, and with no unit left it ends the decoder. -/
theorem State.DecStreams.pull_cases {s : State} {bs : List Byte} {ok : Bool} (hs : s.DecStreams bs ok) :
    (∃ b rest t, bs = b :: rest ∧ exec .decPull s = .next t ∧
      t.response = some (okResponse (dataWord b)) ∧ t.DecStreams rest ok) ∨
    (∃ t, bs = [] ∧ exec .decPull s = .next t ∧ t.response = some (okResponse (finalWord ok)) ∧
      t.dec.Ended ok) := by
  obtain ⟨hp, -⟩ | ⟨hp, -⟩ | ⟨hp, -⟩ | ⟨-, hdrained, hend, e⟩ | ⟨-, hdrained, hne, hroom, e⟩ |
    ⟨-, hdrained, hne, hroom, hok, e⟩ | ⟨-, hdrained, -, hroom, hok, e⟩ | ⟨-, hrd, e⟩ := decPull_cases s
  iterate 3 exact nomatch hs.phase.symm.trans hp
  · cases (DecUnit.decodeStream_inputLeft_at_end hend _).symm.trans (hs.of_drained hdrained)
    exact .inr ⟨_, rfl, e, rfl, hs.inv.exhaust hs.phase hdrained hend, rfl⟩
  · have hlt := BitVec.lt_of_le_ne hs.inv.cursor hne
    cases (DecUnit.decodeStream_inputLeft_truncated hlt hroom _).symm.trans (hs.of_drained hdrained)
    exact .inr ⟨_, rfl, e, rfl, hs.inv.fail hdrained hne, rfl⟩
  · cases (DecUnit.decodeStream_inputLeft_not_ok hroom hok).symm.trans (hs.of_drained hdrained)
    exact .inr ⟨_, rfl, e, rfl, hs.inv.afterReads.fail hdrained hne, rfl⟩
  · have hn := DecUnit.rd_lt_valid_refill hok
    have hleft := (DecUnit.decodeStream_inputLeft_ok hroom hok).symm.trans (hs.of_drained hdrained)
    rw [DecUnit.staged_of_lt hn] at hleft
    obtain ⟨hbytes, hstatus⟩ := Prod.mk.inj hleft
    exact .inl ⟨_, _, _, hbytes.symm, e, rfl, hs.inv.refill_deliver hs.phase hroom hn, hs.phase,
      Prod.ext rfl hstatus⟩
  · have hleft := hs.left
    rw [DecUnit.staged_of_lt (BitVec.lt_of_le_ne hs.inv.counts hrd)] at hleft
    obtain ⟨hbytes, hstatus⟩ := Prod.mk.inj hleft
    exact .inl ⟨_, _, _, hbytes.symm, e, rfl, hs.inv.deliver hs.phase hrd, hs.phase, Prod.ext rfl hstatus⟩

theorem State.DecStreams.pull {s : State} {b : Byte} {bs : List Byte} {ok : Bool}
    (hs : s.DecStreams (b :: bs) ok) :
    ∃ t, exec .decPull s = .next t ∧ t.response = some (okResponse (dataWord b)) ∧
      t.DecStreams bs ok := by
  obtain ⟨_, _, t, ⟨⟩, ht⟩ | ⟨_, ⟨⟩, -⟩ := hs.pull_cases
  exact ⟨t, ht⟩

theorem State.DecStreams.final_pull {s : State} {ok : Bool} (hs : s.DecStreams [] ok) :
    ∃ t, exec .decPull s = .next t ∧ t.response = some (okResponse (finalWord ok)) ∧
      t.dec.Ended ok := by
  obtain ⟨_, _, _, ⟨⟩, -⟩ | ⟨t, -, ht⟩ := hs.pull_cases
  exact ⟨t, ht⟩

/-- Pulls deliver the units left in order. -/
theorem State.DecStreams.pulls (bs : List Byte) {ok : Bool} {s : State} (hs : s.DecStreams bs ok) :
    ∃ t, transactAll (List.replicate bs.length (encode .decPull)) s = some (dataResponses bs, t) ∧
      t.DecStreams [] ok ∧ t.enc = s.enc ∧ t.imem = s.imem := by
  induction bs generalizing s with
  | nil => exact ⟨s, rfl, hs, rfl, rfl⟩
  | cons b bs ih =>
    obtain ⟨t, hpull, hresponse, ht⟩ := hs.pull
    obtain ⟨r, hrun, hr, henc, himem⟩ := ih ht
    refine ⟨r, ?_, hr, henc.trans (exec_keeps_enc rfl hpull), himem.trans (exec_keeps_imem hpull).1⟩
    rw [List.length_cons, List.replicate_succ, transactAll_cons (decode_encode _) hpull hresponse, hrun]
    rfl

/-- A decoder that has ended answers its word to every pull, and changes nothing (R192, R194). -/
theorem DecUnit.Ended.decPull {s : State} {ok : Bool} (hs : s.dec.Ended ok) :
    exec .decPull s = .next (s.respond (finalWord ok) false []) := by
  cases ok with
  | true => exact decPull_of_exhausted hs.phase
  | false => exact decPull_of_failed hs.phase

theorem DecUnit.Ended.pulls {ok : Bool} (m : Nat) {s : State} (hs : s.dec.Ended ok) :
    ∃ t, transactAll (List.replicate m (encode .decPull)) s =
        some (List.replicate m (okResponse (finalWord ok)), t) ∧
      t.dec.Ended ok ∧ t.enc = s.enc ∧ t.imem = s.imem := by
  induction m generalizing s with
  | zero => exact ⟨s, rfl, hs, rfl, rfl⟩
  | succ m ih =>
    obtain ⟨t, hrun, ht⟩ := ih (s := s.respond (finalWord ok) false []) hs
    refine ⟨t, ?_, ht⟩
    rw [List.replicate_succ, transactAll_cons (decode_encode _) hs.decPull rfl, hrun]
    rfl

/-- ERR of a decoder that has ended (R191). -/
theorem DecUnit.Ended.err {u : DecUnit} {ok : Bool} (hu : u.Ended ok) : u.err = !ok := by
  cases ok with
  | true => exact hu.inv.err_eq_false (by simp [hu.phase])
  | false => exact hu.inv.status.2 hu.phase

/-- The status word of a decoder that has ended (R207). -/
theorem DecUnit.Ended.statusWord {u : DecUnit} {ok : Bool} (hu : u.Ended ok) :
    u.statusWord = if ok then 0x00000004#32 else 0x00000007#32 := by
  cases ok with
  | true => exact hu.inv.statusWord_of_exhausted hu.phase
  | false => exact hu.inv.statusWord_of_failed hu.phase

/-- A STREAMING decoder delivers its units left, and then answers END or FAIL for ever. -/
theorem State.DecStreams.drain {s : State} {bs : List Byte} {ok : Bool} (hs : s.DecStreams bs ok) (m : Nat) :
    ∃ t, transactAll (List.replicate (bs.length + (m + 1)) (encode .decPull)) s =
        some (dataResponses bs ++ List.replicate (m + 1) (okResponse (finalWord ok)), t) ∧
      t.dec.Ended ok ∧ t.enc = s.enc ∧ t.imem = s.imem := by
  obtain ⟨q, hrun, hq, henc, himem⟩ := hs.pulls
  obtain ⟨r, hpull, hresponse, hr⟩ := hq.final_pull
  obtain ⟨t, hrun', ht, henc', himem'⟩ := hr.pulls m
  refine ⟨t, ?_, ht, henc'.trans ((exec_keeps_enc rfl hpull).trans henc),
    himem'.trans ((exec_keeps_imem hpull).1.trans himem)⟩
  rw [List.replicate_add, transactAll_append _ _ _ _ _ hrun, List.replicate_succ,
    transactAll_cons (decode_encode _) hpull hresponse, hrun']
  rfl

/-- DEC_OPEN runs to a bound decoder (R111, R204). -/
theorem transactAll_decOpen (s : State) (base len : Word) :
    transactAll (Pseudo.decOpen base len).assemble s = some (List.replicate 3 (okResponse 0#32),
      { s with dec := ({ s.dec with base := base, len := len } : DecUnit).bind }.respond 0 false []) := by
  simp only [Pseudo.assemble, Pseudo.expand, List.map]
  rw [transactAll_cons (decode_encode _) rfl rfl, transactAll_cons (decode_encode _) rfl rfl,
    transactAll_cons (decode_encode _) rfl rfl]
  rfl

/-- Open the decoder and pull: the valid part of its input, and then END or FAIL for ever (R193, R194). -/
theorem transactAll_decOpen_pulls (s : State) (base len : Word) (m : Nat) {bytes : List Byte} {ok : Bool}
    (h : decodeStream (inputBytes s.imem base len) = (bytes, ok)) : ∃ t,
    transactAll ((Pseudo.decOpen base len).assemble ++
        List.replicate (bytes.length + (m + 1)) (encode .decPull)) s =
      some (List.replicate 3 (okResponse 0#32) ++ dataResponses bytes ++
        List.replicate (m + 1) (okResponse (finalWord ok)), t) ∧
    t.dec.Ended ok ∧ t.enc = s.enc ∧ t.imem = s.imem := by
  have hs := State.decStreams_of_bind (u := { s.dec with base := base, len := len })
    (s := { s with dec := ({ s.dec with base := base, len := len } : DecUnit).bind }.respond 0 false []) rfl
  rw [respond_imem, h] at hs
  obtain ⟨t, hrun, ht⟩ := hs.drain m
  refine ⟨t, ?_, ht⟩
  rw [transactAll_append _ _ _ _ _ (transactAll_decOpen s base len), hrun, List.append_assoc]
  rfl

/-! ### What the encoder's answers say of its input (R196) -/

theorem dataWord_injective : Function.Injective dataWord := by
  intro a b h
  rw [dataWord_eq, dataWord_eq] at h
  bv_omega

/-- END is no DATA response. -/
theorem dataWord_ne_end (b : Byte) : okResponse (dataWord b) ≠ okResponse 0x00000100#32 := by
  intro h
  have hrdata : dataWord b = 0x00000100#32 := congrArg Response.rdata h
  rw [dataWord_eq] at hrdata
  bv_omega

theorem end_notMem_dataResponses (bs : List Byte) : okResponse 0x00000100#32 ∉ dataResponses bs :=
  List.mem_map.not.2 fun ⟨b, _, h⟩ => dataWord_ne_end b h

/-- The units delivered before the first END are determined by the responses. -/
theorem eq_of_dataResponses_append_end {as bs : List Byte} {xs ys : List Response}
    (h : dataResponses as ++ okResponse 0x00000100#32 :: xs =
      dataResponses bs ++ okResponse 0x00000100#32 :: ys) : as = bs := by
  induction as generalizing bs with
  | nil =>
    cases bs with
    | nil => rfl
    | cons b bs => exact absurd (List.cons_eq_cons.1 h).1.symm (dataWord_ne_end b)
  | cons a as ih =>
    cases bs with
    | nil => exact absurd (List.cons_eq_cons.1 h).1 (dataWord_ne_end a)
    | cons b bs =>
      obtain ⟨hword, hrest⟩ := List.cons_eq_cons.1 h
      rw [dataWord_injective (congrArg Response.rdata hword), ih hrest]

/-- With fewer pulls than units left no pull answers END. -/
theorem State.EncStreams.end_notMem_responses {s t : State} {cs : List Byte} (hs : s.EncStreams cs) {n : Nat}
    {rs : List Response} (hn : n ≤ cs.length)
    (hrun : transactAll (List.replicate n (encode .encPull)) s = some (rs, t)) :
    okResponse 0x00000100#32 ∉ rs := by
  obtain ⟨_, hrun', -⟩ := State.EncStreams.pulls (cs.take n) (by rwa [List.take_append_drop])
  rw [List.length_take_of_le hn, hrun] at hrun'
  obtain ⟨rfl, -⟩ := Prod.mk.inj (Option.some.inj hrun')
  exact end_notMem_dataResponses _

/-- If pulls answer DATA responses and then END, these are the units that were left. -/
theorem State.EncStreams.eq_of_run {s t : State} {cs chars : List Byte} (hs : s.EncStreams cs) {n : Nat}
    (hrun : transactAll (List.replicate (n + 1) (encode .encPull)) s =
      some (dataResponses chars ++ [okResponse 0x00000100#32], t)) : chars = cs := by
  have hn : cs.length ≤ n := by
    by_contra hlt
    exact hs.end_notMem_responses (Nat.succ_le_of_lt (Nat.lt_of_not_le hlt)) hrun (by simp)
  obtain ⟨m, rfl⟩ := Nat.exists_eq_add_of_le hn
  obtain ⟨_, hrun', -⟩ := hs.drain m
  rw [← Nat.add_assoc, hrun] at hrun'
  exact eq_of_dataResponses_append_end (Prod.mk.inj (Option.some.inj hrun')).1

/-- If opening the encoder and pulling answers DATA responses and then END, these are the encoding of the
input. -/
theorem eq_encodeStream_of_run {s t : State} {base len : Word} {chars : List Byte} {n : Nat}
    (hrun : transactAll ((Pseudo.encOpen base len).assemble ++
        List.replicate (n + 1) (encode .encPull)) s =
      some (List.replicate 3 (okResponse 0#32) ++ dataResponses chars ++ [okResponse 0x00000100#32], t)) :
    chars = encodeStream (inputBytes s.imem base len) := by
  have hs := State.encStreams_of_bind (u := { s.enc with base := base, len := len })
    (s := { s with enc := ({ s.enc with base := base, len := len } : EncUnit).bind }.respond 0 false []) rfl
  rw [transactAll_append _ _ _ _ _ (transactAll_encOpen s base len), Option.map_eq_some_iff] at hrun
  obtain ⟨⟨rs, t'⟩, hpulls, hmap⟩ := hrun
  obtain ⟨hresponses, -⟩ := Prod.mk.inj hmap
  rw [List.append_assoc] at hresponses
  cases List.append_cancel_left hresponses
  exact hs.eq_of_run hpulls

/-! ### The obligations on the decoder -/

/-- Settles O31: the units left are at most as many as PEND and the cursor allow, and after them and one more
pull the decoder has ended. -/
theorem decoderDrainEndsWithinItsBound : Obligations.DecoderDrainEndsWithinItsBound := by
  intro s n hinv hp hn
  have hs : s.DecStreams _ _ := ⟨hinv.dec, hp, rfl⟩
  obtain ⟨m, hm⟩ := Nat.exists_eq_add_of_le (hs.length_le.trans_eq hn.symm)
  obtain ⟨t, hrun, ht, henc, -⟩ := hs.drain m
  refine ⟨_, t, by rw [hm]; exact hrun, ?_, henc⟩
  rw [ht.phase]
  split
  · exact .inl rfl
  · exact .inr rfl

/-- Settles O56: DEC_OPEN leaves the decoding of the input as the units left, which are drained. -/
theorem decoderDeliversTheDecodingOfItsInput : Obligations.DecoderDeliversTheDecodingOfItsInput := by
  intro s base len m bytes ok h
  obtain ⟨t, hrun, ht, henc, himem⟩ := transactAll_decOpen_pulls s base len m h
  exact ⟨t, hrun, ht.phase, ht.err, by rw [← ht.statusWord]; rfl, henc, himem⟩

/-- Settles O57: the encoder's answers are the encoding of its input, and decoding inverts it. -/
theorem decodingTheEncodersOutputGivesTheInput : Obligations.DecodingTheEncodersOutputGivesTheInput := by
  intro s base len chars s1 n hrun _ d dbase hchars
  have hdecode : decodeStream (inputBytes d.imem dbase (BitVec.ofNat 32 chars.length)) =
      (inputBytes s.imem base len, true) := by
    rw [hchars, eq_encodeStream_of_run hrun, decodeStream_encodeStream]
  obtain ⟨d1, hrun', hd1, -⟩ := transactAll_decOpen_pulls d dbase _ 0 hdecode
  rw [inputBytes_length] at hrun'
  exact ⟨d1, hrun', hd1.phase, hd1.err⟩

/-- Settles O26: the equation of each case; a chunk's addresses and bytes are written out. -/
theorem decPullFollowsItsRule : Obligations.DecPullFollowsItsRule := by
  refine ⟨fun t h => decode_of_mask h false 0x0B#6 rfl,
    fun s => ⟨?unbound, ?exhausted, ?failed, ?atEnd, ?truncated, ?chunk, ?deliver⟩⟩
  case unbound => exact decPull_of_unbound
  case exhausted => exact decPull_of_exhausted
  case failed => exact decPull_of_failed
  case atEnd => exact decPull_at_end
  case truncated =>
    intro hp hdrained hlt hroom
    exact decPull_truncated hp hdrained (BitVec.ne_of_lt hlt) hroom
  case chunk =>
    rintro hp hdrained hroom hunbroken a0 a1 a2 a3 rfl rfl rfl rfl c rfl
    rw [← DecUnit.nextChunk_of_unbroken hunbroken, ← chunkAddrs_four, decPull_chunk hp hdrained hroom]
    constructor
    · intro hok
      rw [decRefillPull_of_not_ok hok, DecUnit.afterReads_of_unbroken hunbroken]
      rfl
    · intro hok
      rw [decRefillPull_of_ok hok, DecUnit.refill, DecUnit.afterReads_of_unbroken hunbroken, decDeliver,
        dataWord_eq]
      rfl
  case deliver =>
    intro hp hrd u hu
    rw [decPull_deliver hp hrd, decDeliver, DecStage.get_eq_of_getElem? hu, dataWord_eq]
    rfl

/-- Settles O28: the two reads by definition; the words that can occur by the invariant. -/
theorem decStatusAndPosAreRead : Obligations.DecStatusAndPosAreRead := by
  refine ⟨fun t => ⟨fun h => decode_of_mask h false 0x0C#6 rfl, fun h => decode_of_mask h false 0x0D#6 rfl⟩,
    fun s => ⟨?status, rfl, fun hs => hs.dec.aligned⟩⟩
  intro p e w hp he hw
  have hword : w = s.dec.statusWord := by
    rw [hw, hp, he, DecUnit.statusWord, DecUnit.pend]
    cases s.dec.phase <;> cases s.dec.err <;> rfl
  rw [hword]
  exact ⟨rfl, fun hs => ⟨hs.dec.statusWord_of_unbound, hs.dec.statusWord_of_streaming,
    hs.dec.statusWord_of_exhausted, hs.dec.statusWord_of_failed⟩⟩

/-- Settles O30: by what can happen to the phase in a transaction, and by cases on what a step serves. -/
theorem decoderPhaseMachine : Obligations.DecoderPhaseMachine := by
  refine ⟨?transaction, ?bind, ?reset, ?step⟩
  case transaction =>
    intro i s t h hne
    exact (exec_decPhase_cases h).resolve_left hne
  case bind =>
    intro w s t hw h
    cases (decWctrl_of_bind hw s).symm.trans h
    exact ⟨rfl, rfl⟩
  case reset =>
    intro s rest hin
    exact ⟨assertReset { s with inbox := rest }, by simp only [step, serveNext, hin, serveEvent], rfl, rfl⟩
  case step =>
    intro s t e rest hin h hne
    obtain ⟨w, he, ⟨i, hi, hexec⟩ | ⟨_, -, rfl⟩⟩ | ⟨a, v, -, rfl⟩ | ⟨he, rfl⟩ := step_cases hin h
    · exact .inl ⟨w, i, hi, hexec, he⟩
    · exact absurd rfl hne
    · exact absurd rfl hne
    · exact .inr ⟨he, rfl⟩

/-- Settles O32: the legal patterns, and in each of them the count and the padding characters. -/
theorem chunkIsValidExactlyWithLegalPadding : Obligations.ChunkIsValidExactlyWithLegalPadding :=
  fun _ _ _ _ => ⟨decodeClasses_ok_iff, decodeChunk_n_add_count⟩

/-- Settles O33: the chunk of each pattern, and its bytes as concatenated bits. -/
theorem decodeChunkRebuildsTheBytes : Obligations.DecodeChunkRebuildsTheBytes := by
  intro c0 c1 c2 c3 v0 v1 v2 v3 hc0 hc1
  obtain ⟨h0, h1, h2⟩ := unpack_eq_append
  rw [← h0, ← h1, ← h2]
  exact ⟨fun hc2 hc3 => congrArg DecodedChunk.bytes (decodeChunk_values hc0 hc1 hc2 hc3),
    fun hc2 => congrArg DecodedChunk.bytes (decodeChunk_one_pad hc0 hc1 hc2),
    congrArg DecodedChunk.bytes (decodeChunk_two_pads hc0 hc1)⟩

/-- Settles O34: the chunk of each padded pattern, whose bytes take only the bits that agree. -/
theorem unusedBitsOfAPaddedChunkAreIgnored : Obligations.UnusedBitsOfAPaddedChunkAreIgnored := by
  intro c0 c1 c1' c2 c2' v0 v1 v1' v2 v2' hc0 hc1 hc1' hc2 hc2'
  have htwo := decodeChunk_two_pads hc0 hc1
  have hone := decodeChunk_one_pad hc0 hc1 hc2
  refine ⟨fun h => ⟨?_, congrArg DecodedChunk.ok htwo⟩, fun h => ⟨?_, congrArg DecodedChunk.ok hone⟩⟩
  · rw [unpack0_congr v0 h, ← decodeChunk_two_pads hc0 hc1'] at htwo
    exact htwo
  · rw [unpack1_congr v1 h, ← decodeChunk_one_pad hc0 hc1 hc2'] at hone
    exact hone

/-- Settles O35: '-' and '_' have the classes of '+' and '/', and decoding sees the classes alone. -/
theorem urlSafeCharactersDecodeAsTheStandardOnes :
    Obligations.UrlSafeCharactersDecodeAsTheStandardOnes := by
  intro std hstd
  have hclass (c : Byte) : classify (std c) = classify c := by rw [hstd, classify_urlSafe]
  exact ⟨decodeChunk_of_classify_eq hclass, decodeStream_map_of_classify_eq hclass⟩

/-- Settles O37: by induction over the chunks. -/
theorem validInputDecodesToItsLength : Obligations.ValidInputDecodesToItsLength :=
  fun _ => length_decodeStream

/-- Settles O38: by induction over the chunks of the valid part. -/
theorem decodingGoesOnAfterAValidPart : Obligations.DecodingGoesOnAfterAValidPart :=
  fun _ ds h => decodeStream_append h ds

/-- Settles O39: no transaction but a bind moves a FAILED decoder, by induction over the list. -/
theorem failedDecoderStaysFailedUntilABind : Obligations.FailedDecoderStaysFailedUntilABind := by
  intro ts s hp hts
  obtain ⟨rs, s', hrun, hs'⟩ := transactAll_keeps_stuck ⟨hp, rfl, rfl⟩ hts
  exact ⟨rs, s', hrun, hs'.phase, hs'.err, hs'.pos,
    (transact_instr (decode_encode _) s').trans (decPull_of_failed hs'.phase)⟩

/-- Settles O23: the words by their row, the write and the read by definition. -/
theorem decBaseIsWrittenAndRead : Obligations.DecBaseIsWrittenAndRead :=
  ⟨rfl, fun _ _ => ⟨fun h => decode_of_mask h true 0x08#6 rfl, fun h => decode_of_mask h false 0x08#6 rfl,
    fun _ => rfl, rfl⟩⟩

/-- Settles O24: the words by their row, the write and the read by definition. -/
theorem decLenIsWrittenAndRead : Obligations.DecLenIsWrittenAndRead :=
  ⟨rfl, fun _ _ => ⟨fun h => decode_of_mask h true 0x09#6 rfl, fun h => decode_of_mask h false 0x09#6 rfl,
    fun _ => rfl, rfl⟩⟩

/-- Settles O25: the words by their row, and the command by its BIND bit. -/
theorem decCtrlBindsAndReadsZero : Obligations.DecCtrlBindsAndReadsZero :=
  fun s _ => ⟨fun h => decode_of_mask h true 0x0A#6 rfl, fun h => decode_of_mask h false 0x0A#6 rfl,
    fun _ hw => ⟨false, decWctrl_of_bind hw s⟩, fun _ hw => decWctrl_of_not_bind hw s, rfl⟩

end Sys2Proof.Machine

/-! ## Bus errors and the isolation of the units (spec/60_exceptions.md) -/

namespace Sys2Proof.Machine

/-- The illegal words are the writes to a read-only word and the accesses to a reserved word (R241). -/
theorem exists_decode_eq_illegal_iff_pair {t : TxnWord} :
    (∃ c, decode t = .illegal c) ↔ (t.we = true ∧ ReadOnlyWord t.wa) ∨ ReservedWord t.wa := by
  simp only [decode_eq_illegal_iff, ← and_assoc, exists_or, exists_and_left, exists_eq, and_true]

/-- A transaction is answered with ERR exactly when its word is illegal, and then it only answers the bus
error (R241, R242, R245). -/
theorem transact_response_cases (t : TxnWord) (s : State) : ∃ s' r, transact t s = .next s' ∧
    s'.response = some r ∧ (r.err = true ↔ ∃ c, decode t = .illegal c) ∧
    (r.err = true → s' = raiseBusError s ∧ r.rdata = 0) := by
  cases ht : decode t with
  | instr i =>
    obtain ⟨s', hexec⟩ := exec_eq_next i s
    obtain ⟨rdata, hresponse⟩ := exec_response hexec
    exact ⟨s', _, (transact_instr ht s).trans hexec, hresponse, by simp, by simp⟩
  | illegal c => exact ⟨_, _, transact_illegal ht s, rfl, by simp, fun _ => ⟨rfl, rfl⟩⟩

/-! ### The obligations on exceptions -/

/-- Settles O6: ERR is 1 exactly for the illegal words, and a bus error only answers, which no next
transaction sees. -/
theorem busErrorExactlyOutsideTheOpcodeMap : Obligations.BusErrorExactlyOutsideTheOpcodeMap := by
  intro t s
  obtain ⟨s', r, hs', hresponse, herr, hbus⟩ := transact_response_cases t s
  refine ⟨s', r, hs', hresponse, herr.trans exists_decode_eq_illegal_iff,
    herr.trans exists_decode_eq_illegal_iff_pair, fun hr => ?_⟩
  obtain ⟨rfl, hrdata⟩ := hbus hr
  exact ⟨hrdata, rfl, rfl, rfl, rfl, fun u => transact_respond u s _ _ _⟩

/-- Settles O43: each unit's transactions keep the other unit, and do the same whatever it is. -/
theorem unitsShareNoState : Obligations.UnitsShareNoState :=
  fun _ _ _ h => ⟨fun hi => ⟨exec_keeps_dec hi h, exec_withDec hi h⟩,
    fun hi => ⟨exec_keeps_enc hi h, exec_withEnc hi h⟩⟩

end Sys2Proof.Machine

/-! ## Reset and the host's hazards (spec/70_reset_and_hazards.md) -/

namespace Sys2Proof.Machine

/-! ### A refill after a broken borrow (R275, U2) -/

/-- A refill after the host has broken the borrow transcodes free bytes and counts them (R156, R275). -/
theorem EncUnit.refill_of_broken {u : EncUnit} (hu : u.broken = true) (m : Memory) : u.refill m =
    { u with
      stage := encodeChunk u.chunkSize (Config.encFreeByte u.draws)
        (if 2 ≤ u.chunkSize then Config.encFreeByte (u.draws + 1) else 0#8)
        (if u.chunkSize = 3 then Config.encFreeByte (u.draws + 2) else 0#8)
      valid := 4#3
      rd := 0#3
      pos := u.pos + BitVec.ofNat 32 u.chunkSize
      draws := u.draws + u.chunkSize } := by
  simp [EncUnit.refill, EncUnit.fetch, hu, drawsAfter]

/-- The next chunk after the host has broken the borrow is one of free bytes (R206, R275). -/
theorem DecUnit.nextChunk_of_broken {u : DecUnit} (hu : u.broken = true) (m : Memory) :
    u.nextChunk m = decodeChunk (Config.decFreeByte u.draws) (Config.decFreeByte (u.draws + 1))
      (Config.decFreeByte (u.draws + 2)) (Config.decFreeByte (u.draws + 3)) := by
  simp [DecUnit.nextChunk, DecUnit.fetch, hu]

/-- Such a chunk is read by drawing four free bytes. -/
theorem DecUnit.afterReads_of_broken {u : DecUnit} (hu : u.broken = true) :
    u.afterReads = { u with draws := u.draws + 4 } := by
  simp [DecUnit.afterReads, drawsAfter, hu]

/-! ### DEC_PULL of a whole chunk, by what it decodes to (R206, R246) -/

theorem decPull_invalid_chunk {s : State} (hp : s.dec.phase = .streaming) (hdrained : s.dec.rd = s.dec.valid)
    (hroom : 4 ≤ s.dec.blen.toNat - s.dec.pos.toNat) (hok : (s.dec.nextChunk s.imem).ok = false) :
    exec .decPull s = .next (raiseDecodeError { s with dec := s.dec.afterReads }
      (chunkAddrs s.dec.bbase s.dec.pos 4)) := by
  rw [decPull_chunk hp hdrained hroom, decRefillPull_of_not_ok hok]

theorem decPull_valid_chunk {s : State} (hp : s.dec.phase = .streaming) (hdrained : s.dec.rd = s.dec.valid)
    (hroom : 4 ≤ s.dec.blen.toNat - s.dec.pos.toNat) (hok : (s.dec.nextChunk s.imem).ok = true) :
    exec .decPull s = .next (decDeliver { s with dec := s.dec.refill (s.dec.nextChunk s.imem) }
      (chunkAddrs s.dec.bbase s.dec.pos 4)) := by
  rw [decPull_chunk hp hdrained hroom, decRefillPull_of_ok hok]

/-! ### The mark of a broken borrow (R275) -/

/-- A write into the bound range of a STREAMING encoder sets the mark and nothing else. -/
theorem EncUnit.hostWrote_inside {u : EncUnit} {a : Word} (hp : u.phase = .streaming)
    (ha : inRange a u.bbase u.blen = true) : u.hostWrote a = { u with broken := true } := by
  simp [EncUnit.hostWrote, hp, ha]

/-- A write into the bound range of a STREAMING decoder sets the mark and nothing else. -/
theorem DecUnit.hostWrote_inside {u : DecUnit} {a : Word} (hp : u.phase = .streaming)
    (ha : inRange a u.bbase u.blen = true) : u.hostWrote a = { u with broken := true } := by
  simp [DecUnit.hostWrote, hp, ha]

/-! ### The reset input (R270, R272) -/

/-- The reset input, between transactions or in the middle of one, is served as one reset. -/
theorem step_of_reset {s : State} {e : HostEvent} {rest : List HostEvent} (hs : s.inbox = e :: rest)
    (he : e = .reset ∨ ∃ w, e = .resetDuring w) : step s = .next (assertReset { s with inbox := rest }) := by
  obtain rfl | ⟨w, rfl⟩ := he <;> simp only [step, serveNext, hs, serveEvent]

/-- The reset state is one that the reset input leaves. -/
theorem assertReset_reset : assertReset State.reset = State.reset := rfl

/-- After the reset input nothing is staged and the phase is UNBOUND, so ENC_STATE is 0 (R49, R270). -/
theorem EncUnit.stateWord_afterReset (u : EncUnit) : u.afterReset.stateWord = 0x00#32 := by
  rw [EncUnit.stateWord, EncUnit.pend, EncUnit.afterReset_valid, EncUnit.afterReset_rd,
    EncUnit.afterReset_phase]
  rfl

/-- After the reset input the registers with an initial value read 0 (R270). -/
theorem read_assertReset (s : State) {i : Instr} (hi : i ∈ [Instr.encRbase, .encRlen, .encRstate, .encRpos,
      .decRbase, .decRlen, .decRstatus, .decRpos]) :
    ∃ t, exec i (assertReset s) = .next t ∧ t.response = some ⟨0x00000000#32, false⟩ := by
  simp only [List.mem_cons, List.not_mem_nil, or_false] at hi
  rcases hi with rfl | rfl | rfl | rfl | rfl | rfl | rfl | rfl
  · exact ⟨_, rfl, rfl⟩
  · exact ⟨_, rfl, rfl⟩
  · exact ⟨_, rfl, congrArg (some ∘ okResponse) (EncUnit.stateWord_afterReset s.enc)⟩
  · exact ⟨_, rfl, rfl⟩
  · exact ⟨_, rfl, rfl⟩
  · exact ⟨_, rfl, rfl⟩
  · exact ⟨_, rfl, congrArg (some ∘ okResponse) ((DecUnit.Inv.afterReset s.dec).statusWord_of_unbound rfl)⟩
  · exact ⟨_, rfl, rfl⟩

/-- After the reset input a pull of either unit answers UNBOUND (R270). -/
theorem pull_assertReset (s : State) {i : Instr} (hi : i ∈ [Instr.encPull, .decPull]) :
    ∃ t, exec i (assertReset s) = .next t ∧ t.response = some ⟨0x00000300#32, false⟩ := by
  simp only [List.mem_cons, List.not_mem_nil, or_false] at hi
  rcases hi with rfl | rfl
  · exact ⟨_, encPull_of_unbound rfl, rfl⟩
  · exact ⟨_, decPull_of_unbound rfl, rfl⟩

/-! ### The shadow registers and the bound streams (R42, R279) -/

/-- The encoder with other values in its shadow registers. -/
def EncUnit.withShadow (u : EncUnit) (base len : Word) : EncUnit := { u with base := base, len := len }

/-- The decoder with other values in its shadow registers. -/
def DecUnit.withShadow (u : DecUnit) (base len : Word) : DecUnit := { u with base := base, len := len }

/-- The state with other values in the four shadow registers. -/
def State.withShadows (s : State) (encBase encLen decBase decLen : Word) : State :=
  { s with enc := s.enc.withShadow encBase encLen, dec := s.dec.withShadow decBase decLen }

/-- The four writes of shadow registers do nothing but that. -/
theorem eq_withShadows_of_write {w : Word} {i : Instr} {s t : State}
    (hi : i ∈ [Instr.encWbase w, .encWlen w, .decWbase w, .decWlen w]) (h : exec i s = .next t) :
    ∃ eb el db dl, t = (s.withShadows eb el db dl).respond 0 false [] := by
  simp only [List.mem_cons, List.not_mem_nil, or_false] at hi
  rcases hi with rfl | rfl | rfl | rfl <;> cases h
  · exact ⟨w, s.enc.len, s.dec.base, s.dec.len, rfl⟩
  · exact ⟨s.enc.base, w, s.dec.base, s.dec.len, rfl⟩
  · exact ⟨s.enc.base, s.enc.len, w, s.dec.len, rfl⟩
  · exact ⟨s.enc.base, s.enc.len, s.dec.base, w, rfl⟩

/-- ENC_PULL neither looks at nor changes the encoder's shadow registers (R156): each case stays that case. -/
theorem encPull_withShadow {s t : State} (h : exec .encPull s = .next t) (base len : Word) :
    exec .encPull { s with enc := s.enc.withShadow base len } =
      .next { t with enc := t.enc.withShadow base len } := by
  obtain ⟨hp, e⟩ | ⟨hp, e⟩ | ⟨hp, hdrained, hend, e⟩ | ⟨hp, hdrained, hne, e⟩ | ⟨hp, hrd, e⟩ :=
    encPull_cases s <;> cases e.symm.trans h
  · exact encPull_of_unbound hp
  · exact encPull_of_exhausted hp
  · exact encPull_at_end hp hdrained hend
  · exact encPull_refill hp hdrained hne
  · exact encPull_deliver hp hrd

/-- DEC_PULL neither looks at nor changes the decoder's shadow registers (R206): each case stays that case. -/
theorem decPull_withShadow {s t : State} (h : exec .decPull s = .next t) (base len : Word) :
    exec .decPull { s with dec := s.dec.withShadow base len } =
      .next { t with dec := t.dec.withShadow base len } := by
  obtain ⟨hp, e⟩ | ⟨hp, e⟩ | ⟨hp, e⟩ | ⟨hp, hdrained, hend, e⟩ | ⟨hp, hdrained, hne, hroom, e⟩ |
    ⟨hp, hdrained, -, hroom, hok, e⟩ | ⟨hp, hdrained, -, hroom, hok, e⟩ | ⟨hp, hrd, e⟩ :=
    decPull_cases s <;> cases e.symm.trans h
  · exact decPull_of_unbound hp
  · exact decPull_of_exhausted hp
  · exact decPull_of_failed hp
  · exact decPull_at_end hp hdrained hend
  · exact decPull_truncated hp hdrained hne hroom
  · exact decPull_invalid_chunk hp hdrained hroom hok
  · exact decPull_valid_chunk hp hdrained hroom hok
  · exact decPull_deliver hp hrd

/-- A pull of either unit neither looks at nor changes the shadow registers. -/
theorem pull_withShadows {p : Instr} (hp : p ∈ [Instr.encPull, .decPull]) {s t : State}
    (h : exec p s = .next t) (eb el db dl : Word) :
    exec p (s.withShadows eb el db dl) = .next (t.withShadows eb el db dl) := by
  simp only [List.mem_cons, List.not_mem_nil, or_false] at hp
  rcases hp with rfl | rfl
  · rw [State.withShadows, State.withShadows, exec_keeps_dec rfl h]
    exact encPull_withDec (encPull_withShadow h eb el) _
  · rw [State.withShadows, State.withShadows, exec_keeps_enc rfl h]
    exact decPull_withEnc (decPull_withShadow h db dl) _

/-- Any number of pulls is answered alike whatever the shadow registers hold. -/
theorem pulls_withShadows {p : Instr} (hp : p ∈ [Instr.encPull, .decPull]) (n : Nat) (s : State)
    (eb el db dl : Word) : ∃ rs t, transactAll (List.replicate n (encode p)) s = some (rs, t) ∧
      transactAll (List.replicate n (encode p)) (s.withShadows eb el db dl) =
        some (rs, t.withShadows eb el db dl) := by
  induction n generalizing s with
  | zero => exact ⟨[], s, rfl, rfl⟩
  | succ n ih =>
    obtain ⟨t, h⟩ := exec_eq_next p s
    obtain ⟨rdata, hresponse⟩ := exec_response h
    obtain ⟨rs, r, hrun, hrun'⟩ := ih t
    refine ⟨⟨rdata, false⟩ :: rs, r, ?_, ?_⟩
    · rw [List.replicate_succ, transactAll_cons (decode_encode p) h hresponse, hrun]
      rfl
    · rw [List.replicate_succ,
        transactAll_cons (decode_encode p) (pull_withShadows hp h eb el db dl) hresponse, hrun']
      rfl

/-- A run of at least one transaction does not depend on what the last event was answered. -/
theorem transactAll_cons_respond (w : TxnWord) (ws : List TxnWord) (s : State) (rdata : Word) (err : Bool)
    (reads : List Word) : transactAll (w :: ws) (s.respond rdata err reads) = transactAll (w :: ws) s := by
  simp only [transactAll, transact_respond]

/-! ### The obligations on reset and hazards -/

/-- Settles O14: the refill's equation, with the chunk and the count of a broken borrow. -/
theorem encPullAfterABrokenBorrowRunsOnFreeBytes : Obligations.EncPullAfterABrokenBorrowRunsOnFreeBytes := by
  rintro s hp hdrained hlt hbroken k rfl g rfl
  rw [encPull_refill hp hdrained (BitVec.ne_of_lt hlt),
    chunkAddrs_take _ _ s.enc.chunkSize (Nat.min_le_left ..), EncUnit.refill_of_broken hbroken, encDeliver,
    dataWord_eq]
  rfl

/-- Settles O27: the chunk's equation, with the bytes and the count of a broken borrow, for a valid and for
an invalid chunk. -/
theorem decPullAfterABrokenBorrowRunsOnFreeBytes : Obligations.DecPullAfterABrokenBorrowRunsOnFreeBytes := by
  rintro s hp hdrained hroom hbroken n c a0 rfl rfl rfl
  rw [← DecUnit.nextChunk_of_broken hbroken s.imem, ← chunkAddrs_four]
  cases hok : (s.dec.nextChunk s.imem).ok with
  | true =>
    rw [decPull_valid_chunk hp hdrained hroom hok, DecUnit.refill, DecUnit.afterReads_of_broken hbroken,
      decDeliver, dataWord_eq]
    rfl
  | false =>
    rw [decPull_invalid_chunk hp hdrained hroom hok, DecUnit.afterReads_of_broken hbroken]
    rfl

/-- Settles O45: the write only puts other values and an answer, and no pull sees either. -/
theorem shadowWritesDoNotAffectTheBoundStream : Obligations.ShadowWritesDoNotAffectTheBoundStream := by
  intro w i hi p hp n s t h
  obtain ⟨eb, el, db, dl, rfl⟩ := eq_withShadows_of_write hi h
  cases n with
  | zero => exact ⟨[], _, _, rfl, rfl⟩
  | succ n =>
    obtain ⟨rs, r, hrun, hrun'⟩ := pulls_withShadows hp (n + 1) s eb el db dl
    exact ⟨rs, r, _, hrun, (transactAll_cons_respond ..).trans hrun'⟩

/-- Settles O46: both ways lead to a state that the reset input leaves, whose fields are those of reset. -/
theorem resetLeavesBothUnitsUnbound : Obligations.ResetLeavesBothUnitsUnbound := by
  intro s hs
  obtain ⟨s0, rfl⟩ : ∃ s0, s = assertReset s0 := by
    obtain rfl | ⟨s0, rest, hin, hstep⟩ := hs
    · exact ⟨_, assertReset_reset.symm⟩
    · cases (step_of_reset hin (.inl rfl)).symm.trans hstep
      exact ⟨_, rfl⟩
  exact ⟨rfl, rfl, rfl, rfl, rfl, rfl, rfl, rfl, rfl, rfl, rfl, rfl, rfl, rfl, rfl, rfl, rfl, rfl, rfl,
    fun _ => read_assertReset s0, fun _ => pull_assertReset s0⟩

/-- Settles O47: what serves either form of the reset input, written out. -/
theorem resetEventRestoresTheResetState : Obligations.ResetEventRestoresTheResetState :=
  fun _ _ _ hin he => step_of_reset hin he

/-- Settles O49: a bind clears the mark; a write is in the bound range where its address is that of a bound
byte. -/
theorem hostWriteIntoABoundRangeBreaksTheBorrow : Obligations.HostWriteIntoABoundRangeBreaksTheBorrow := by
  refine ⟨fun w s t hw => ⟨fun h => ?encBind, fun h => ?decBind⟩, fun s a v rest hin =>
    ⟨_, step_of_imemWrite hin, fun i hi ha hp => ?encWrite, fun i hi ha hp => ?decWrite⟩⟩
  case encBind => cases (encWctrl_of_bind hw s).symm.trans h; rfl
  case decBind => cases (decWctrl_of_bind hw s).symm.trans h; rfl
  case encWrite => exact EncUnit.hostWrote_inside hp ((inRange_iff ..).2 ⟨i, hi, ha⟩)
  case decWrite => exact DecUnit.hostWrote_inside hp ((inRange_iff ..).2 ⟨i, hi, ha⟩)

end Sys2Proof.Machine
